-- ==== Sys2Proof/Word.lean ====
section
/-!
DEFINITION. The value types of RxChip8 CORE: bytes, 16-bit words, and the widths of the fields an
instruction word carries (spec/30_encoding.md R61, spec/10_state.md R10, R13, R15). All values are
unsigned (spec/00_scope.md R8), so a bit vector's `toNat` is the value the spec speaks of.
-/

namespace Sys2Proof

/-- Eight bits: a general register, a timer, a memory cell, the NN immediate. -/
abbrev Byte := BitVec 8

/-- Sixteen bits: an instruction word, I, PC, a call-stack slot. -/
abbrev Word := BitVec 16

/-- The 12-bit NNN immediate (R61). -/
abbrev Imm12 := BitVec 12

/-- The 4-bit N immediate (R61). -/
abbrev Nibble := BitVec 4

/-- The number of a general register, 0 to 15 (R10): the X and Y fields (R61) and `wait_x` (R26). -/
abbrev Reg := Fin 16

/-- The number of VF, the register that doubles as carry, borrow and collision flag (R12). -/
abbrev Reg.vf : Reg := 15

end Sys2Proof
end

