-- ==== Sys2Proof/Syntax.lean ====
section
/-!
DEFINITION. The instructions: one constructor per row of spec/opcode_table.json (34 rows), in the
table's order, with the operands the row's format carries (spec/30_encoding.md R62, R65). A word that
matches no row is no instruction (R67); what the machine does with it is Machine/Ops.lean
`execUnknown`.
-/

namespace Sys2Proof

/-- The 34 instructions (R65). Operand names are the spec's field names in lower case (R61). -/
inductive Instr where
  /-- `00E0` CLS (R160) -/
  | cls
  /-- `00EE` RET (R100) -/
  | ret
  /-- `1NNN` JP nnn (R101) -/
  | jp (nnn : Imm12)
  /-- `2NNN` CALL nnn (R102) -/
  | call (nnn : Imm12)
  /-- `3XNN` SE_IMM Vx, nn (R103) -/
  | seImm (x : Reg) (nn : Byte)
  /-- `4XNN` SNE_IMM Vx, nn (R104) -/
  | sneImm (x : Reg) (nn : Byte)
  /-- `5XY0` SE_REG Vx, Vy (R105) -/
  | seReg (x y : Reg)
  /-- `6XNN` LD_IMM Vx, nn (R120) -/
  | ldImm (x : Reg) (nn : Byte)
  /-- `7XNN` ADD_IMM Vx, nn (R121) -/
  | addImm (x : Reg) (nn : Byte)
  /-- `8XY0` MOV Vx, Vy (R141) -/
  | mov (x y : Reg)
  /-- `8XY1` OR Vx, Vy (R142) -/
  | or (x y : Reg)
  /-- `8XY2` AND Vx, Vy (R143) -/
  | and (x y : Reg)
  /-- `8XY3` XOR Vx, Vy (R144) -/
  | xor (x y : Reg)
  /-- `8XY4` ADD Vx, Vy (R145) -/
  | add (x y : Reg)
  /-- `8XY5` SUB Vx, Vy (R146) -/
  | sub (x y : Reg)
  /-- `8XY6` SHR Vx, Vy (R147) -/
  | shr (x y : Reg)
  /-- `8XY7` SUBN Vx, Vy (R148) -/
  | subn (x y : Reg)
  /-- `8XYE` SHL Vx, Vy (R149) -/
  | shl (x y : Reg)
  /-- `9XY0` SNE_REG Vx, Vy (R106) -/
  | sneReg (x y : Reg)
  /-- `ANNN` LD_I nnn (R122) -/
  | ldI (nnn : Imm12)
  /-- `BNNN` JP_V0 nnn (R107) -/
  | jpV0 (nnn : Imm12)
  /-- `CXNN` RND Vx, nn (R123) -/
  | rnd (x : Reg) (nn : Byte)
  /-- `DXYN` DRW Vx, Vy, n (R162) -/
  | drw (x y : Reg) (n : Nibble)
  /-- `EX9E` SKP Vx (R180) -/
  | skp (x : Reg)
  /-- `EXA1` SKNP Vx (R181) -/
  | sknp (x : Reg)
  /-- `FX07` LD_VX_DT Vx (R185) -/
  | ldVxDt (x : Reg)
  /-- `FX0A` LD_VX_K Vx (R183) -/
  | ldVxK (x : Reg)
  /-- `FX15` LD_DT_VX Vx (R186) -/
  | ldDtVx (x : Reg)
  /-- `FX18` LD_ST_VX Vx (R187) -/
  | ldStVx (x : Reg)
  /-- `FX1E` ADD_I Vx (R124) -/
  | addI (x : Reg)
  /-- `FX29` LD_F Vx (R125) -/
  | ldF (x : Reg)
  /-- `FX33` LD_B Vx (R200) -/
  | ldB (x : Reg)
  /-- `FX55` ST_REGS Vx (R203) -/
  | stRegs (x : Reg)
  /-- `FX65` LD_REGS Vx (R206) -/
  | ldRegs (x : Reg)
  deriving DecidableEq, Repr

/-- The mnemonic of R65 (the spec's label; the hex pattern is the normative name, R69). -/
def Instr.mnemonic : Instr → String
  | .cls => "CLS" | .ret => "RET" | .jp _ => "JP" | .call _ => "CALL"
  | .seImm _ _ => "SE_IMM" | .sneImm _ _ => "SNE_IMM" | .seReg _ _ => "SE_REG"
  | .ldImm _ _ => "LD_IMM" | .addImm _ _ => "ADD_IMM"
  | .mov _ _ => "MOV" | .or _ _ => "OR" | .and _ _ => "AND" | .xor _ _ => "XOR"
  | .add _ _ => "ADD" | .sub _ _ => "SUB" | .shr _ _ => "SHR" | .subn _ _ => "SUBN"
  | .shl _ _ => "SHL" | .sneReg _ _ => "SNE_REG"
  | .ldI _ => "LD_I" | .jpV0 _ => "JP_V0" | .rnd _ _ => "RND" | .drw _ _ _ => "DRW"
  | .skp _ => "SKP" | .sknp _ => "SKNP"
  | .ldVxDt _ => "LD_VX_DT" | .ldVxK _ => "LD_VX_K" | .ldDtVx _ => "LD_DT_VX"
  | .ldStVx _ => "LD_ST_VX" | .addI _ => "ADD_I" | .ldF _ => "LD_F" | .ldB _ => "LD_B"
  | .stRegs _ => "ST_REGS" | .ldRegs _ => "LD_REGS"

/-- One operand field of an instruction word: its value, its lowest bit and its width (R61, R62). -/
structure Field where
  value : Nat
  lo : Nat
  width : Nat
  deriving DecidableEq, Repr

/-- The X field, bits 11:8 (R61). -/
def Field.ofX (x : Reg) : Field := ⟨x.val, 8, 4⟩
/-- The Y field, bits 7:4 (R61). -/
def Field.ofY (y : Reg) : Field := ⟨y.val, 4, 4⟩
/-- The N field, bits 3:0 (R61). -/
def Field.ofN (n : Nibble) : Field := ⟨n.toNat, 0, 4⟩
/-- The NN field, bits 7:0 (R61). -/
def Field.ofNN (nn : Byte) : Field := ⟨nn.toNat, 0, 8⟩
/-- The NNN field, bits 11:0 (R61). -/
def Field.ofNNN (nnn : Imm12) : Field := ⟨nnn.toNat, 0, 12⟩

/-- The operand fields of an instruction, most significant first, as its format has them (R62). -/
def Instr.fields : Instr → List Field
  | .cls | .ret => []
  | .jp n | .call n | .ldI n | .jpV0 n => [.ofNNN n]
  | .seImm x nn | .sneImm x nn | .ldImm x nn | .addImm x nn | .rnd x nn => [.ofX x, .ofNN nn]
  | .seReg x y | .sneReg x y | .mov x y | .or x y | .and x y | .xor x y | .add x y | .sub x y
  | .shr x y | .subn x y | .shl x y => [.ofX x, .ofY y]
  | .drw x y n => [.ofX x, .ofY y, .ofN n]
  | .skp x | .sknp x | .ldVxDt x | .ldVxK x | .ldDtVx x | .ldStVx x | .addI x | .ldF x | .ldB x
  | .stRegs x | .ldRegs x => [.ofX x]

end Sys2Proof
end

