-- ==== Sys2Proof/WellFormed.lean ====
section
/-!
DEFINITION. The static check of an instruction: each operand fits its field, and the field lies below
the family nibble of the 16-bit word (spec/30_encoding.md R61, R63). The operand TYPES of `Instr`
already hold a value to its field's width, so every instruction passes (Laws/Decode.lean
`wellFormed_all`); the check itself is over raw fields and does refuse values that do not fit.
-/

namespace Sys2Proof

/-- The value fits the field's width (R63: an immediate is taken from the bits as they stand). -/
def Field.valueFits (f : Field) : Bool := decide (f.value < 2 ^ f.width)

/-- The field lies in bits 11:0, below the family nibble (R61). -/
def Field.liesInOperandBits (f : Field) : Bool := decide (f.lo + f.width ≤ 12)

/-- Both checks on one field. -/
def Field.ok (f : Field) : Bool := f.valueFits && f.liesInOperandBits

/-- No bit belongs to two of the listed fields (R62: a format lays its fields side by side); the list
runs from the most significant field down. -/
def Field.disjoint : List Field → Bool
  | f :: g :: rest => decide (g.lo + g.width ≤ f.lo) && Field.disjoint (g :: rest)
  | _ => true

/-- An instruction is well formed when every operand field is, and no two of them share a bit. -/
def Instr.wellFormed (i : Instr) : Bool := i.fields.all Field.ok && Field.disjoint i.fields

end Sys2Proof
end

