-- ==== Sys2Proof/Decode.lean ====
section
/-!
DEFINITION. Decoding and encoding (spec/30_encoding.md): the opcode map as a table of mask and match
rows (R65), the decoder that selects from it (R83), the same selection as RXC's two-level dispatch
(R64), and the encoder (R71). Byte order is decided here, once (spec/20_memory.md R44).
-/

namespace Sys2Proof

/-! ## Bytes and words -/

/-- `{hi, lo}`: the byte at the lower address holds bits 15:8 (R44). -/
def wordOfBytes (hi lo : Byte) : Word := hi ++ lo

/-- Bits 15:8 of a word. -/
def highByte (w : Word) : Byte := w.extractLsb' 8 8

/-- Bits 7:0 of a word. -/
def lowByte (w : Word) : Byte := w.extractLsb' 0 8

/-! ## Fields of an instruction word (R61) -/

/-- `op[15:12]`, the family. -/
def familyOf (op : Word) : Nibble := op.extractLsb' 12 4

/-- `op[11:8]`, the X field. -/
def xOf (op : Word) : Reg := (op.extractLsb' 8 4).toFin

/-- `op[7:4]`, the Y field. -/
def yOf (op : Word) : Reg := (op.extractLsb' 4 4).toFin

/-- `op[3:0]`, the N field. -/
def nOf (op : Word) : Nibble := op.extractLsb' 0 4

/-- `op[7:0]`, the NN field. -/
def nnOf (op : Word) : Byte := op.extractLsb' 0 8

/-- `op[11:0]`, the NNN field. -/
def nnnOf (op : Word) : Imm12 := op.extractLsb' 0 12

/-! ## The opcode map (R65) -/

/-- One row of the opcode map: the word is this instruction when `op & mask = value`, and `build`
takes the operands out of it. -/
structure Row where
  mask : Word
  value : Word
  build : Word → Instr

/-- `op & mask = match` (R65). -/
def Row.selects (r : Row) (op : Word) : Bool := op &&& r.mask == r.value

/-- Rows of families 0 to 7 and 9 to D. -/
def rowsMain : List Row := [
  ⟨0xFFFF, 0x00E0, fun _ => .cls⟩,
  ⟨0xFFFF, 0x00EE, fun _ => .ret⟩,
  ⟨0xF000, 0x1000, fun op => .jp (nnnOf op)⟩,
  ⟨0xF000, 0x2000, fun op => .call (nnnOf op)⟩,
  ⟨0xF000, 0x3000, fun op => .seImm (xOf op) (nnOf op)⟩,
  ⟨0xF000, 0x4000, fun op => .sneImm (xOf op) (nnOf op)⟩,
  ⟨0xF00F, 0x5000, fun op => .seReg (xOf op) (yOf op)⟩,
  ⟨0xF000, 0x6000, fun op => .ldImm (xOf op) (nnOf op)⟩,
  ⟨0xF000, 0x7000, fun op => .addImm (xOf op) (nnOf op)⟩,
  ⟨0xF00F, 0x9000, fun op => .sneReg (xOf op) (yOf op)⟩,
  ⟨0xF000, 0xA000, fun op => .ldI (nnnOf op)⟩,
  ⟨0xF000, 0xB000, fun op => .jpV0 (nnnOf op)⟩,
  ⟨0xF000, 0xC000, fun op => .rnd (xOf op) (nnOf op)⟩,
  ⟨0xF000, 0xD000, fun op => .drw (xOf op) (yOf op) (nOf op)⟩]

/-- Rows of family 8: the low nibble selects. -/
def rowsAlu : List Row := [
  ⟨0xF00F, 0x8000, fun op => .mov (xOf op) (yOf op)⟩,
  ⟨0xF00F, 0x8001, fun op => .or (xOf op) (yOf op)⟩,
  ⟨0xF00F, 0x8002, fun op => .and (xOf op) (yOf op)⟩,
  ⟨0xF00F, 0x8003, fun op => .xor (xOf op) (yOf op)⟩,
  ⟨0xF00F, 0x8004, fun op => .add (xOf op) (yOf op)⟩,
  ⟨0xF00F, 0x8005, fun op => .sub (xOf op) (yOf op)⟩,
  ⟨0xF00F, 0x8006, fun op => .shr (xOf op) (yOf op)⟩,
  ⟨0xF00F, 0x8007, fun op => .subn (xOf op) (yOf op)⟩,
  ⟨0xF00F, 0x800E, fun op => .shl (xOf op) (yOf op)⟩]

/-- Rows of families E and F: the low byte selects. -/
def rowsX : List Row := [
  ⟨0xF0FF, 0xE09E, fun op => .skp (xOf op)⟩,
  ⟨0xF0FF, 0xE0A1, fun op => .sknp (xOf op)⟩,
  ⟨0xF0FF, 0xF007, fun op => .ldVxDt (xOf op)⟩,
  ⟨0xF0FF, 0xF00A, fun op => .ldVxK (xOf op)⟩,
  ⟨0xF0FF, 0xF015, fun op => .ldDtVx (xOf op)⟩,
  ⟨0xF0FF, 0xF018, fun op => .ldStVx (xOf op)⟩,
  ⟨0xF0FF, 0xF01E, fun op => .addI (xOf op)⟩,
  ⟨0xF0FF, 0xF029, fun op => .ldF (xOf op)⟩,
  ⟨0xF0FF, 0xF033, fun op => .ldB (xOf op)⟩,
  ⟨0xF0FF, 0xF055, fun op => .stRegs (xOf op)⟩,
  ⟨0xF0FF, 0xF065, fun op => .ldRegs (xOf op)⟩]

/-- The opcode map: 34 rows. UNVERIFIED: the exact match of families 0, 5 and 9 is decision D8, the unknown
words of family 0 decision D9 (notes/assumptions/10.md). -/
def opcodeMap : List Row := rowsMain ++ rowsAlu ++ rowsX

/-! ## The decoder (R83) -/

/-- The instruction a word stands for; `none` for an unknown opcode (R65, R67). -/
def decodeWord (op : Word) : Option Instr :=
  (opcodeMap.find? (·.selects op)).map (·.build op)

/-- The same selection in RXC's shape: the high nibble first, then in families 0, 8, E and F a secondary
key, with the exact match of R66 in families 0, 5 and 9 (R64, R83). -/
def dispatchWord (op : Word) : Option Instr :=
  match (familyOf op).toNat with
  | 0x0 =>
    if xOf op = 0 then
      match (nnOf op).toNat with
      | 0xE0 => some .cls
      | 0xEE => some .ret
      | _ => none
    else none
  | 0x1 => some (.jp (nnnOf op))
  | 0x2 => some (.call (nnnOf op))
  | 0x3 => some (.seImm (xOf op) (nnOf op))
  | 0x4 => some (.sneImm (xOf op) (nnOf op))
  | 0x5 => if nOf op = 0 then some (.seReg (xOf op) (yOf op)) else none
  | 0x6 => some (.ldImm (xOf op) (nnOf op))
  | 0x7 => some (.addImm (xOf op) (nnOf op))
  | 0x8 =>
    match (nOf op).toNat with
    | 0x0 => some (.mov (xOf op) (yOf op))
    | 0x1 => some (.or (xOf op) (yOf op))
    | 0x2 => some (.and (xOf op) (yOf op))
    | 0x3 => some (.xor (xOf op) (yOf op))
    | 0x4 => some (.add (xOf op) (yOf op))
    | 0x5 => some (.sub (xOf op) (yOf op))
    | 0x6 => some (.shr (xOf op) (yOf op))
    | 0x7 => some (.subn (xOf op) (yOf op))
    | 0xE => some (.shl (xOf op) (yOf op))
    | _ => none
  | 0x9 => if nOf op = 0 then some (.sneReg (xOf op) (yOf op)) else none
  | 0xA => some (.ldI (nnnOf op))
  | 0xB => some (.jpV0 (nnnOf op))
  | 0xC => some (.rnd (xOf op) (nnOf op))
  | 0xD => some (.drw (xOf op) (yOf op) (nOf op))
  | 0xE =>
    match (nnOf op).toNat with
    | 0x9E => some (.skp (xOf op))
    | 0xA1 => some (.sknp (xOf op))
    | _ => none
  | 0xF =>
    match (nnOf op).toNat with
    | 0x07 => some (.ldVxDt (xOf op))
    | 0x0A => some (.ldVxK (xOf op))
    | 0x15 => some (.ldDtVx (xOf op))
    | 0x18 => some (.ldStVx (xOf op))
    | 0x1E => some (.addI (xOf op))
    | 0x29 => some (.ldF (xOf op))
    | 0x33 => some (.ldB (xOf op))
    | 0x55 => some (.stRegs (xOf op))
    | 0x65 => some (.ldRegs (xOf op))
    | _ => none
  | _ => none

/-- Why a byte string is not decoded. -/
inductive DecodeReject where
  /-- Fewer than the two bytes every instruction has (R60). -/
  | truncated
  /-- The word matches no row of the opcode map (R67). -/
  | unknownOpcode (op : Word)
  deriving DecidableEq, Repr

/-- The instruction at the head of a byte string, high byte first (R60, R44), and the bytes after it. -/
def decode : List Byte → Except DecodeReject (Instr × List Byte)
  | hi :: lo :: rest =>
    match decodeWord (wordOfBytes hi lo) with
    | some i => .ok (i, rest)
    | none => .error (.unknownOpcode (wordOfBytes hi lo))
  | _ => .error .truncated

/-! ## The encoder (R71) -/

/-- `X << 8`. -/
def placeX (x : Reg) : Word := BitVec.ofNat 16 x.val <<< 8

/-- `Y << 4`. -/
def placeY (y : Reg) : Word := BitVec.ofNat 16 y.val <<< 4

/-- The format `XNN` (R62): the match value with X and NN ORed in. -/
def encXNN (value : Word) (x : Reg) (nn : Byte) : Word := value ||| placeX x ||| nn.zeroExtend 16

/-- The format `XY` (R62). -/
def encXY (value : Word) (x y : Reg) : Word := value ||| placeX x ||| placeY y

/-- The format `X` (R62). -/
def encX (value : Word) (x : Reg) : Word := value ||| placeX x

/-- The format `NNN` (R62). -/
def encNNN (value : Word) (nnn : Imm12) : Word := value ||| nnn.zeroExtend 16

/-- The word of an instruction: the row's match value with the operand fields ORed in (R71). -/
def encodeWord : Instr → Word
  | .cls => 0x00E0
  | .ret => 0x00EE
  | .jp nnn => encNNN 0x1000 nnn
  | .call nnn => encNNN 0x2000 nnn
  | .seImm x nn => encXNN 0x3000 x nn
  | .sneImm x nn => encXNN 0x4000 x nn
  | .seReg x y => encXY 0x5000 x y
  | .ldImm x nn => encXNN 0x6000 x nn
  | .addImm x nn => encXNN 0x7000 x nn
  | .mov x y => encXY 0x8000 x y
  | .or x y => encXY 0x8001 x y
  | .and x y => encXY 0x8002 x y
  | .xor x y => encXY 0x8003 x y
  | .add x y => encXY 0x8004 x y
  | .sub x y => encXY 0x8005 x y
  | .shr x y => encXY 0x8006 x y
  | .subn x y => encXY 0x8007 x y
  | .shl x y => encXY 0x800E x y
  | .sneReg x y => encXY 0x9000 x y
  | .ldI nnn => encNNN 0xA000 nnn
  | .jpV0 nnn => encNNN 0xB000 nnn
  | .rnd x nn => encXNN 0xC000 x nn
  | .drw x y n => encXY 0xD000 x y ||| n.zeroExtend 16
  | .skp x => encX 0xE09E x
  | .sknp x => encX 0xE0A1 x
  | .ldVxDt x => encX 0xF007 x
  | .ldVxK x => encX 0xF00A x
  | .ldDtVx x => encX 0xF015 x
  | .ldStVx x => encX 0xF018 x
  | .addI x => encX 0xF01E x
  | .ldF x => encX 0xF029 x
  | .ldB x => encX 0xF033 x
  | .stRegs x => encX 0xF055 x
  | .ldRegs x => encX 0xF065 x

/-- The two bytes of an instruction, high byte at the lower address (R71). -/
def encode (i : Instr) : List Byte := [highByte (encodeWord i), lowByte (encodeWord i)]

/-! ## The opcode table's own numbering of bits -/

/-- The word whose low `nbits` bits are those of `w`, the rest 0. -/
def tableWord (nbits w : Nat) : Word := BitVec.ofNat 16 (w % 2 ^ nbits)

/-- The bytes of a table word as memory holds them (R44). -/
def tableBytes (nbits w : Nat) : List Byte := [highByte (tableWord nbits w), lowByte (tableWord nbits w)]

/-- What the decoder reads from a word numbered as spec/opcode_table.json numbers its bits. -/
def decodeTableWord (nbits w : Nat) : Option Instr :=
  match decode (tableBytes nbits w) with
  | .ok (i, _) => some i
  | .error _ => none

end Sys2Proof
end

