-- ==== Sys2Proof/Config.lean ====
section
/-!
DEFINITION. What is fixed for this hardware (spec/00_scope.md R7), and the values the environment
chooses, which the model leaves free.
-/

namespace Sys2Proof.Config

/-- `MEM_SIZE` (R7, spec/10_state.md R20): addresses 0x000 to 0xFFF exist. -/
abbrev memSize : Nat := 4096

/-- `PROGRAM_BASE` (R7): where `load` puts the first byte of a program. -/
abbrev programBase : Nat := 0x200

/-- `PC_RESET` (R7, R15). -/
abbrev pcReset : Word := 0x200

/-- `GLYPH_BYTES` (R7, spec/20_memory.md R46): the glyph table fills addresses 0 to 79. -/
abbrev glyphBytes : Nat := 80

/-- `GLYPH_STRIDE` (R7, R46). -/
abbrev glyphStride : Nat := 5

/-- `FB_ROWS` (R7, spec/10_state.md R24). -/
abbrev fbRows : Nat := 32

/-- `FB_COLS` (R7, R24). -/
abbrev fbCols : Nat := 64

/-- FREE VALUE (notes/assumptions/1.md). The levels of `keys[15:0]` that the host drives during the
`n`-th step for which no input was lined up (R27: "Between steps the host may change it freely"). No
body: nothing can be proved of any of its values. -/
opaque hostKeys : Nat → BitVec 16

/-- FREE VALUE (notes/assumptions/1.md). The byte on `rnd[7:0]` during the `n`-th step for which no
input was lined up (R28: "RXC gives no generator, no seed and no distribution"). No body. -/
opaque hostRnd : Nat → Byte

/-- `END_OF_RUN` (R263, spec/92_eei_decisions.md D27, notes/assumptions/21.md): the hardware has no end of run, so a claim that
needs one takes it as an argument of this type. Both choices are the ones R263 calls customary. -/
inductive EndOfRun where
  /-- A fixed number of steps. -/
  | stepCount (n : Nat)
  /-- A `1NNN` that jumps to its own address is reached within `within` steps. -/
  | selfJump (within : Nat)
  deriving DecidableEq, Repr

end Sys2Proof.Config
end

