-- ==== Sys2Proof/Machine/State.lean ====
section
/-!
DEFINITION. The state of RxChip8 CORE as plain data (spec/10_state.md: "The whole state of the CORE is
the tuple"), the outputs of the last step, the host's side of the ports, and the state after reset.
-/

namespace Sys2Proof.Machine

/-- Memory as the cells that differ from the contents reset leaves, in rising order of address
(Machine/Memory.lean says what an unlisted address reads as). -/
abbrev Memory := List Host.Cell

/-- The framebuffer `fb[row][col]`: 32 rows of 64 one-bit cells (R24). -/
abbrev Frame := Vector (Vector Bool 64) 32

/-- The three per-step event outputs (R87, R220): not state of the CORE (R6), kept here as the outputs
the last step handed to the host. DESIGN CHOICE: notes/assumptions/5.md. -/
structure Events where
  /-- `ev_addr_oor`, bit 0 of the event vector (R220, R221). -/
  addrOor : Bool
  /-- `ev_unknown_opcode`, bit 1 (R222). -/
  unknownOpcode : Bool
  /-- `frame_changed`, bit 2 (R163). -/
  frameChanged : Bool
  deriving DecidableEq, Repr

/-- No event. -/
def Events.clear : Events := ⟨false, false, false⟩

/-- What the host drives on the input ports during one step (R27, R28). -/
structure Inputs where
  /-- `keys[15:0]`: bit k is 1 when key k is down. -/
  keys : BitVec 16
  /-- `rnd[7:0]`. -/
  rnd : Byte
  deriving DecidableEq, Repr

/-- The machine. The fields down to `waitX` are the CORE's whole state (R29); the rest is the model's
own: the outputs of the last step, and the host's side of the ports. -/
structure State where
  /-- V0 to VF (R10); V[15] is VF (R12). -/
  v : Vector Byte 16
  /-- The index register I (R13). -/
  i : Word
  /-- The program counter (R15). -/
  pc : Word
  /-- The call-stack slots (R17). -/
  stack : Vector Word 16
  /-- The stack pointer, 4 bits (R17; UNVERIFIED: the width is decision D23, notes/assumptions/18.md). -/
  sp : BitVec 4
  /-- The delay timer (R21). -/
  dt : Byte
  /-- The sound timer (R22). -/
  st : Byte
  /-- `mem[0..4095]` (R20). -/
  mem : Memory
  /-- `fb[row][col]` (R24). -/
  fb : Frame
  /-- The awaiting-key flag (R25). -/
  awaiting : Bool
  /-- The register a wait targets (R26). -/
  waitX : Reg
  /-- MODEL'S OWN: the event outputs of the last step or load (R87). -/
  ev : Events
  /-- MODEL'S OWN (notes/assumptions/1.md): the inputs lined up for the coming steps, the next step's
  first. A step past the end of the list gets free values. -/
  inputs : List Inputs
  /-- MODEL'S OWN (notes/assumptions/1.md): how many steps have sampled the ports; it picks the free
  values, so that no two steps share one. -/
  samples : Nat
  /-- MODEL'S OWN (notes/assumptions/4.md): a step has run since reset, so `load` may no longer be
  used (R254). -/
  stepped : Bool
  /-- MODEL'S OWN (notes/assumptions/4.md): `load` has been used since reset, so a second `load` is
  refused (spec/93_implementation_defined.md U18). -/
  loaded : Bool
  deriving DecidableEq, Repr

/-- Reasons for the machine to stop. There are none: "there is no state in which the CORE is stuck, and no
step faults" (R81), no condition is fatal (R220 to R224), so no constructor exists and no step can
answer with a fault. SAFE: nothing the spec allows is ruled out. -/
inductive Fault
  deriving DecidableEq, Repr

/-- What the model gives no meaning to. -/
inductive Refusal where
  /-- Raised by `exec`'s arm of an instruction that has no meaning yet (no arm at present). SAFE: the
  model stops where the hardware goes on. -/
  | notModelled (mnemonic : String)
  /-- Raised by the host operation `load` once a step has run since reset: "loading after steps have run
  is outside what RXC describes ... and a model refuses it" (R254). No instruction raises it. SAFE. -/
  | loadAfterStep
  /-- Raised by the host operation `load` when it has been used since reset: "load exactly once" (R254), and
  a second `load` is to be refused (spec/93_implementation_defined.md U18, spec/91_not_in_source.md N21).
  No instruction raises it. SAFE. -/
  | secondLoad
  deriving DecidableEq, Repr

/-- The machine right after reset (R30, R250). UNVERIFIED: all zeros but SP's are decision D2
(notes/assumptions/2.md). Memory lists nothing: an unlisted address reads as reset
leaves it. `inputs` and `samples` belong to the host's side and have no reset value in the spec
(notes/assumptions/1.md). -/
def State.reset : State where
  v := Vector.replicate 16 0
  i := 0
  pc := Config.pcReset
  stack := Vector.replicate 16 0
  sp := 0
  dt := 0
  st := 0
  mem := []
  fb := Vector.replicate 32 (Vector.replicate 64 false)
  awaiting := false
  waitX := 0
  ev := Events.clear
  inputs := []
  samples := 0
  stepped := false
  loaded := false

end Sys2Proof.Machine
end

