-- ==== Sys2Proof/Machine/Memory.lean ====
section
/-!
DEFINITION. The contents of memory as a canonical list of cells: what an unlisted address reads as (the
reset contents, spec/20_memory.md R46, R47, spec/10_state.md R30), reading and writing one byte, and
the canonical form. Addresses here are in range; the bounds check is Machine/Ops.lean.
-/

namespace Sys2Proof.Machine

/-- The glyphs of digits 0 to 7 (R46). -/
def glyphsLow : List Byte := [
  0xF0, 0x90, 0x90, 0x90, 0xF0,
  0x20, 0x60, 0x20, 0x20, 0x70,
  0xF0, 0x10, 0xF0, 0x80, 0xF0,
  0xF0, 0x10, 0xF0, 0x10, 0xF0,
  0x90, 0x90, 0xF0, 0x10, 0x10,
  0xF0, 0x80, 0xF0, 0x10, 0xF0,
  0xF0, 0x80, 0xF0, 0x90, 0xF0,
  0xF0, 0x10, 0x20, 0x40, 0x40]

/-- The glyphs of digits 8 to F (R46). -/
def glyphsHigh : List Byte := [
  0xF0, 0x90, 0xF0, 0x90, 0xF0,
  0xF0, 0x90, 0xF0, 0x10, 0xF0,
  0xF0, 0x90, 0xF0, 0x90, 0x90,
  0xE0, 0x90, 0xE0, 0x90, 0xE0,
  0xF0, 0x80, 0x80, 0x80, 0xF0,
  0xE0, 0x90, 0x90, 0x90, 0xE0,
  0xF0, 0x80, 0xF0, 0x80, 0xF0,
  0xF0, 0x80, 0xF0, 0x80, 0x80]

/-- The glyph table: 80 bytes from address 0x000 (R46). -/
def glyphs : List Byte := glyphsLow ++ glyphsHigh

/-- What an unlisted address reads as: the byte reset leaves there, the glyph table at 0x000 to 0x04F and
0x00 above (R30, R47). -/
def Memory.resetByte (a : Nat) : Byte := glyphs.getD a 0

/-- The byte at an address. -/
def Memory.read : Memory → Nat → Byte
  | [], a => Memory.resetByte a
  | (b, x) :: m, a => if a = b then x else Memory.read m a

/-- Without the entry of an address. -/
def Memory.erase (m : Memory) (a : Nat) : Memory := m.filter (fun c => c.1 != a)

/-- With an entry put in front of the first larger address. -/
def Memory.insert : Memory → Nat → Byte → Memory
  | [], a, x => [(a, x)]
  | (b, y) :: m, a, x => if a < b then (a, x) :: (b, y) :: m else (b, y) :: Memory.insert m a x

/-- Stores a byte. Storing what the unlisted address reads as removes the entry, so equal contents are
equal lists. -/
def Memory.write (m : Memory) (a : Nat) (x : Byte) : Memory :=
  if x = Memory.resetByte a then m.erase a else (m.erase a).insert a x

/-- The canonical form: addresses strictly rise, all of them exist, and no entry says what the unlisted
address would. -/
abbrev Memory.wf (m : Memory) : Prop :=
  m.Pairwise (fun c d => c.1 < d.1) ∧
    ∀ c ∈ m, c.1 < Config.memSize ∧ c.2 ≠ Memory.resetByte c.1

end Sys2Proof.Machine
end

