-- ==== Sys2Proof/Machine/Ops.lean ====
section
/-!
DEFINITION. The named operations every meaning is written with: register access, the bounds-checked
memory accesses, the call stack, advancing PC, the events, the timer tick, and the parts of a step
around the instruction (spec/10_state.md, spec/20_memory.md, spec/40_step_cycle.md,
spec/60_exceptions.md). There is no exception entry and no return from one to model: "no condition saves
state, switches a stack or a mode, masks anything, or transfers control to a vector" (R227, R228);
what the hardware has instead is `raise`.
-/

namespace Sys2Proof.Machine

/-! ## General registers -/

/-- `V[x]` (R10). -/
def State.getV (s : State) (x : Reg) : Byte := s.v[x]

/-- `V[x] <- b` (R11). -/
def State.setV (s : State) (x : Reg) (b : Byte) : State := { s with v := s.v.set x b }

/-! ## Events (R220) -/

/-- All event outputs 0. -/
def clearEvents (s : State) : State := { s with ev := Events.clear }

/-- Raises AddressOutOfRange (R221). -/
def raiseAddrOor (s : State) : State := { s with ev := { s.ev with addrOor := true } }

/-- Raises UnknownOpcode (R222). -/
def raiseUnknownOpcode (s : State) : State := { s with ev := { s.ev with unknownOpcode := true } }

/-- Sets `frame_changed` for the step (R163). -/
def raiseFrameChanged (s : State) : State := { s with ev := { s.ev with frameChanged := true } }

/-! ## Memory -/

/-- An address is in range when it is at most 0xFFF (R40). Addresses are exact sums, so plain numbers. -/
def inRange (a : Nat) : Bool := decide (a < Config.memSize)

/-- The byte a read of the address answers: 0x00 when out of range (R41). -/
def State.byteAt (s : State) (a : Nat) : Byte := if inRange a then s.mem.read a else 0

/-- AddressOutOfRange for an access to an address that is out of range (R41, R42). -/
def checkAddr (a : Nat) (s : State) : State := if inRange a then s else raiseAddrOor s

/-- `MemRead(a, 1)` (R41). -/
def memRead (a : Nat) (s : State) : Byte × State := (s.byteAt a, checkAddr a s)

/-- `MemWrite(a, 1, x)` (R42). -/
def memWrite (a : Nat) (x : Byte) (s : State) : State :=
  if inRange a then { s with mem := s.mem.write a x } else raiseAddrOor s

/-! ## Call stack -/

/-- The slot `stack[k]` (R17). -/
def State.slot (s : State) (k : BitVec 4) : Word := s.stack[k.toFin]

/-- `Push(a)`: the pointer wraps modulo 16 and nothing is reported (R18). UNVERIFIED: decision D5
(notes/assumptions/8.md). -/
def push (a : Word) (s : State) : State :=
  { s with stack := s.stack.set s.sp.toFin a, sp := s.sp + 1 }

/-- The stack pointer after a pop: one less, floored at 0 (R19). -/
def popPointer (sp : BitVec 4) : BitVec 4 := if sp = 0 then 0 else sp - 1

/-- `Pop()`: the slot at the lowered pointer; the slot is not cleared (R19). -/
def pop (s : State) : Word × State :=
  let sp := popPointer s.sp
  (s.slot sp, { s with sp := sp })

/-! ## Program counter (R84) -/

/-- `NextPC()`. UNVERIFIED: that the sum wraps is decision D3 (notes/assumptions/3.md). -/
def nextPC (s : State) : State := { s with pc := s.pc + 2 }

/-- `Skip()`: in addition to `NextPC()`. -/
def skip (s : State) : State := { s with pc := s.pc + 2 }

/-- A skip instruction's end: `Skip()` when the condition holds, then `NextPC()` (R84, R108). -/
def skipIf (c : Bool) (s : State) : State := nextPC (if c then skip s else s)

/-- `PC <- target`, with no further advance (R84). -/
def jumpTo (target : Word) (s : State) : State := { s with pc := target }

/-! ## Input ports (R27, R28, R81) -/

/-- The inputs of the step: what the host lined up, else free values (notes/assumptions/1.md). They are
read from the same place all through a step, which is the sampling of R81. -/
def State.sample (s : State) : Inputs :=
  match s.inputs with
  | [] => ⟨Config.hostKeys s.samples, Config.hostRnd s.samples⟩
  | now :: _ => now

/-- `keys[15:0]` of the step. -/
def State.keys (s : State) : BitVec 16 := s.sample.keys

/-- `rnd[7:0]` of the step. -/
def State.rnd (s : State) : Byte := s.sample.rnd

/-- `KeyDown8(v)`: a number above 15 names no key and reads as not down (R182). UNVERIFIED: decision D10
(notes/assumptions/11.md). -/
def keyDown8 (keys : BitVec 16) (b : Byte) : Bool :=
  if b.toNat ≤ 15 then keys.getLsbD b.toNat else false

/-- `LowestKey(keys)`: the smallest k with `keys[k] = 1`; used only when some key is down (R182).
UNVERIFIED: that the lowest of several is taken is decision D12 (notes/assumptions/11.md). -/
def lowestKey (keys : BitVec 16) : Byte :=
  match (List.range 16).find? (fun k => keys.getLsbD k) with
  | some k => BitVec.ofNat 8 k
  | none => 0

/-- What `FX0A` does once a key is down, shared by the instruction and by the waiting step: the key's
number into the register, the wait over, PC advanced (R183, R184). -/
def takeKey (x : Reg) (s : State) : State :=
  nextPC { s.setV x (lowestKey s.keys) with awaiting := false }

/-! ## Timers (R23) -/

/-- One decrement, floored at 0. -/
def tickDown (t : Byte) : Byte := if t = 0 then 0 else t - 1

/-- `TickTimers()`. -/
def tickTimers (s : State) : State := { s with dt := tickDown s.dt, st := tickDown s.st }

/-! ## The parts of a step around the instruction (R80) -/

/-- The start of a step: its events are 0 (R80, R87). UNVERIFIED: that conditions show as per-step bits is
decision D17 (notes/assumptions/14.md). -/
def beginStep (s : State) : State := clearEvents s

/-- The bytes at PC and PC + 1, high byte first; PC + 1 is the exact sum (R82, R44). -/
def fetchedWord (s : State) : Word := wordOfBytes (s.byteAt s.pc.toNat) (s.byteAt (s.pc.toNat + 1))

/-- Fetch: two bounds-checked reads, before anything is executed; PC stays (R82). UNVERIFIED: that PC + 1
is the exact sum is decision D4 (notes/assumptions/3.md). -/
def fetch (s : State) : Word × State :=
  let (hi, s₁) := memRead s.pc.toNat s
  let (lo, s₂) := memRead (s₁.pc.toNat + 1) s₁
  (wordOfBytes hi lo, s₂)

/-- `ExecuteUnknown(op)`: a reported no-op that advances PC (R85). -/
def execUnknown (s : State) : State := nextPC (raiseUnknownOpcode s)

/-- `WaitStep()`: the step while awaiting a key (R184). -/
def waitStep (s : State) : State := if s.keys ≠ 0 then takeKey s.waitX s else s

/-- The end of a step: the timer tick, its last action (R23, R88; UNVERIFIED: decision D13,
notes/assumptions/12.md); then, on the host's side, the sampled
inputs are used up and a step has run. -/
def endStep (s : State) : State :=
  { tickTimers s with inputs := s.inputs.tail, samples := s.samples + 1, stepped := true }

/-- A function of the next state, if there is one. -/
def onNext (f : State → State) :
    Host.Outcome State Fault Refusal → Host.Outcome State Fault Refusal
  | .next s => .next (f s)
  | .fault r => .fault r
  | .refused r => .refused r

end Sys2Proof.Machine
end

