-- ==== Sys2Proof/Machine/Flags.lean ====
section
/-!
DEFINITION. VF as a flag: every value an instruction computes for it, and the write (spec/10_state.md
R12, spec/43_alu.md R150). The collision flag of `DXYN` is computed by the blit (Machine/Display.lean).
-/

namespace Sys2Proof.Machine

/-- A flag as the byte VF holds: 1 or 0 (R12). -/
def flagByte (c : Bool) : Byte := if c then 1 else 0

/-- `V[15] <- flag`, the last write of an instruction that sets one (R140). UNVERIFIED: the
order is decision D14 (notes/assumptions/13.md). -/
def setFlag (c : Bool) (s : State) : State := s.setV Reg.vf (flagByte c)

/-- The exact sum, 0 to 510 (R150). -/
def exactSum (a b : Byte) : Nat := a.toNat + b.toNat

/-- The exact difference, -255 to 255 (R150). -/
def exactDiff (a b : Byte) : Int := (a.toNat : Int) - (b.toNat : Int)

/-- Carry of `8XY4`: the exact sum exceeds 0xFF (R145). -/
def carry (a b : Byte) : Bool := decide (exactSum a b > 0xFF)

/-- The subtract flag of `8XY5` and `8XY7` for a - b: 1 means NO borrow (R146, R148, R150). -/
def noBorrow (a b : Byte) : Bool := decide (0 ≤ exactDiff a b)

/-- The bit `8XY6` shifts out: bit 0 (R147). -/
def lowBit (b : Byte) : Bool := b.getLsbD 0

/-- The bit `8XYE` shifts out: bit 7 (R149). -/
def highBit (b : Byte) : Bool := b.getLsbD 7

end Sys2Proof.Machine
end

