-- ==== Sys2Proof/Machine/Alu.lean ====
section
/-!
DEFINITION. The register-register ALU family `8XY_` (spec/43_alu.md). In each meaning V[X] and V[Y] are
read first, then the result is written, then the flag (R140); all end with `NextPC()`.
-/

namespace Sys2Proof.Machine

/-- Writes a result to V[X] and advances: the four instructions without a flag. -/
def aluResult (x : Reg) (r : Byte) (s : State) : State := nextPC (s.setV x r)

/-- Writes a result to V[X], then the flag to VF, and advances (R140). -/
def aluResultFlag (x : Reg) (r : Byte) (c : Bool) (s : State) : State :=
  nextPC (setFlag c (s.setV x r))

/-- `8XY0` MOV (R141). -/
def execMov (x y : Reg) (s : State) : Host.Outcome State Fault Refusal :=
  .next (aluResult x (s.getV y) s)

/-- `8XY1` OR (R142). -/
def execOr (x y : Reg) (s : State) : Host.Outcome State Fault Refusal :=
  .next (aluResult x (s.getV x ||| s.getV y) s)

/-- `8XY2` AND (R143). -/
def execAnd (x y : Reg) (s : State) : Host.Outcome State Fault Refusal :=
  .next (aluResult x (s.getV x &&& s.getV y) s)

/-- `8XY3` XOR (R144). -/
def execXor (x y : Reg) (s : State) : Host.Outcome State Fault Refusal :=
  .next (aluResult x (s.getV x ^^^ s.getV y) s)

/-- `8XY4` ADD (R145). -/
def execAdd (x y : Reg) (s : State) : Host.Outcome State Fault Refusal :=
  let a := s.getV x
  let b := s.getV y
  .next (aluResultFlag x (BitVec.ofNat 8 (exactSum a b)) (carry a b) s)

/-- `8XY5` SUB (R146). -/
def execSub (x y : Reg) (s : State) : Host.Outcome State Fault Refusal :=
  let a := s.getV x
  let b := s.getV y
  .next (aluResultFlag x (BitVec.ofInt 8 (exactDiff a b)) (noBorrow a b) s)

/-- `8XY6` SHR: the operand is V[Y] (R147). -/
def execShr (x y : Reg) (s : State) : Host.Outcome State Fault Refusal :=
  let b := s.getV y
  .next (aluResultFlag x (b >>> 1) (lowBit b) s)

/-- `8XY7` SUBN: V[Y] - V[X] (R148). -/
def execSubn (x y : Reg) (s : State) : Host.Outcome State Fault Refusal :=
  let a := s.getV x
  let b := s.getV y
  .next (aluResultFlag x (BitVec.ofInt 8 (exactDiff b a)) (noBorrow b a) s)

/-- `8XYE` SHL: the operand is V[Y], and the result goes to V[X] and to V[Y] (R149). -/
def execShl (x y : Reg) (s : State) : Host.Outcome State Fault Refusal :=
  let b := s.getV y
  let r := b <<< 1
  .next (nextPC (setFlag (highBit b) ((s.setV x r).setV y r)))

end Sys2Proof.Machine
end

