-- ==== Sys2Proof/Machine/Operands.lean ====
section
/-!
DEFINITION. Every operand form of the hardware (spec/30_encoding.md R63, spec/46_memory_ops.md R208): a
general register, an immediate taken as it stands and zero-extended, and memory "at I". There is no
other.
-/

namespace Sys2Proof.Machine

/-- NNN where a 16-bit value is wanted: zero-extended (R63). -/
def immWord (nnn : Imm12) : Word := nnn.zeroExtend 16

/-- The register the k-th transfer of `FX55` and `FX65` moves, k = 0 to 15 (R203, R206). -/
def blockReg (k : Nat) : Reg := Fin.ofNat 16 k

/-- The address I + k, an exact sum, not reduced modulo 2^16 (R40, R208): `DXYN` and `FX33`.
UNVERIFIED: decision D4 (notes/assumptions/3.md). -/
def addrAtI (s : State) (k : Nat) : Nat := s.i.toNat + k

/-- `I <- w` (R13). -/
def setI (w : Word) (s : State) : State := { s with i := w }

/-- `I <- (I + 1) & 0xFFFF` after each transfer of `FX55` and `FX65` (R203, R206). -/
def incI (s : State) : State := setI (s.i + 1) s

/-- A decimal digit of a byte: `FX33` stores hundreds, tens and ones (R200). -/
def decimalDigit (b : Byte) (divisor : Nat) : Byte := BitVec.ofNat 8 (b.toNat / divisor % 10)

end Sys2Proof.Machine
end

