-- ==== Sys2Proof/Machine/Block.lean ====
section
/-!
DEFINITION. The memory instructions: BCD store, register block store and load (spec/46_memory_ops.md).
Registers and digits move one byte at a time, in ascending order (R49).
-/

namespace Sys2Proof.Machine

/-- One transfer of `FX55`: V[k] to memory at I, then I incremented (R203). -/
def storeReg (k : Nat) (s : State) : State := incI (memWrite s.i.toNat (s.getV (blockReg k)) s)

/-- The transfers of V[0] to V[n - 1], in order (R203). -/
def storeRegs : Nat → State → State
  | 0, s => s
  | n + 1, s => storeReg n (storeRegs n s)

/-- One transfer of `FX65`: memory at I to V[k], then I incremented (R206). -/
def loadReg (k : Nat) (s : State) : State :=
  let (b, s₁) := memRead s.i.toNat s
  incI (s₁.setV (blockReg k) b)

/-- The transfers to V[0] to V[n - 1], in order (R206). -/
def loadRegs : Nat → State → State
  | 0, s => s
  | n + 1, s => loadReg n (loadRegs n s)

/-- `FX33` LD_B: hundreds at I, tens at I + 1, ones at I + 2; I is not changed (R200). -/
def execLdB (x : Reg) (s : State) : Host.Outcome State Fault Refusal :=
  let b := s.getV x
  let s₁ := memWrite (addrAtI s 0) (decimalDigit b 100) s
  let s₂ := memWrite (addrAtI s 1) (decimalDigit b 10) s₁
  .next (nextPC (memWrite (addrAtI s 2) (decimalDigit b 1) s₂))

/-- `FX55` ST_REGS: V[0] to V[X] inclusive (R203). -/
def execStRegs (x : Reg) (s : State) : Host.Outcome State Fault Refusal :=
  .next (nextPC (storeRegs (x.val + 1) s))

/-- `FX65` LD_REGS: V[0] to V[X] inclusive (R206). -/
def execLdRegs (x : Reg) (s : State) : Host.Outcome State Fault Refusal :=
  .next (nextPC (loadRegs (x.val + 1) s))

end Sys2Proof.Machine
end

