-- ==== Sys2Proof/Machine/Display.lean ====
section
/-!
DEFINITION. The framebuffer instructions: clear and the XOR sprite blit with its collision flag
(spec/44_display.md). UNVERIFIED, all of them decisions of the spec (notes/assumptions/9.md): the wrap of
each pixel at the edges (D6), bit 7 leftmost (D7), when `frame_changed` is set (D16).
-/

namespace Sys2Proof.Machine

/-- The framebuffer with every cell 0 (R160). -/
def clearFrame : Frame := Vector.replicate 32 (Vector.replicate 64 false)

/-- The cell `fb[row][col]` (R24). -/
def Frame.cell (fb : Frame) (row : Fin 32) (col : Fin 64) : Bool := fb[row][col]

/-- `XorPixel(col, row)`: the cell as it was, and the framebuffer with it toggled (R161). -/
def xorPixel (fb : Frame) (col : Fin 64) (row : Fin 32) : Bool × Frame :=
  let old := fb.cell row col
  (old, fb.set row (fb[row].set col (!old)))

/-- The column of bit offset k: `(V[X] + k) mod 64` (R164). -/
def pixelCol (x0 : Byte) (k : Nat) : Fin 64 := Fin.ofNat 64 (x0.toNat + k)

/-- The row of sprite row r: `(V[Y] + r) mod 32` (R164). -/
def pixelRow (y0 : Byte) (r : Nat) : Fin 32 := Fin.ofNat 32 (y0.toNat + r)

/-- The pixel of bit offset k of a sprite row: offset 0 is bit 7, the leftmost (R162). A 0 bit leaves its
cell alone. The second component is `hit`. -/
def blitPixel (x0 y0 b : Byte) (r k : Nat) (p : Frame × Bool) : Frame × Bool :=
  if b.getLsbD (7 - k) then
    let (old, fb) := xorPixel p.1 (pixelCol x0 k) (pixelRow y0 r)
    (fb, p.2 || old)
  else p

/-- The pixels of bit offsets 0 to n - 1 of one sprite row, in order. -/
def blitRow (x0 y0 b : Byte) (r : Nat) : Nat → Frame × Bool → Frame × Bool
  | 0, p => p
  | n + 1, p => blitPixel x0 y0 b r n (blitRow x0 y0 b r n p)

/-- Sprite row r: one byte read at I + r, then its eight pixels (R162). -/
def drawRow (x0 y0 : Byte) (r : Nat) (q : State × Bool) : State × Bool :=
  let (b, s) := memRead (addrAtI q.1 r) q.1
  let (fb, hit) := blitRow x0 y0 b r 8 (s.fb, q.2)
  ({ s with fb := fb }, hit)

/-- Sprite rows 0 to n - 1, in order (R162). -/
def drawRows (x0 y0 : Byte) : Nat → State × Bool → State × Bool
  | 0, q => q
  | n + 1, q => drawRow x0 y0 n (drawRows x0 y0 n q)

/-- `00E0` CLS: `frame_changed` stays 0 (R160). -/
def execCls (s : State) : Host.Outcome State Fault Refusal :=
  .next (nextPC { s with fb := clearFrame })

/-- `DXYN` DRW: the coordinates are read before VF is written; VF is written, and `frame_changed` set, by
every draw (R162, R163). -/
def execDrw (x y : Reg) (n : Nibble) (s : State) : Host.Outcome State Fault Refusal :=
  let (s₁, hit) := drawRows (s.getV x) (s.getV y) n.toNat (s, false)
  .next (nextPC (raiseFrameChanged (setFlag hit s₁)))

end Sys2Proof.Machine
end

