-- ==== Sys2Proof/Machine/Flow.lean ====
section
/-!
DEFINITION. Control transfer: return, jumps, call and the register skips (spec/41_flow.md).
-/

namespace Sys2Proof.Machine

/-- `00EE` RET: PC becomes what the pop returns (R100). -/
def execRet (s : State) : Host.Outcome State Fault Refusal :=
  let (target, s₁) := pop s
  .next (jumpTo target s₁)

/-- `1NNN` JP (R101). -/
def execJp (nnn : Imm12) (s : State) : Host.Outcome State Fault Refusal :=
  .next (jumpTo (immWord nnn) s)

/-- `2NNN` CALL: pushes the address after itself (R102). -/
def execCall (nnn : Imm12) (s : State) : Host.Outcome State Fault Refusal :=
  .next (jumpTo (immWord nnn) (push (s.pc + 2) s))

/-- `BNNN` JP_V0: the register added is always V[0] (R107). -/
def execJpV0 (nnn : Imm12) (s : State) : Host.Outcome State Fault Refusal :=
  .next (jumpTo (immWord nnn + (s.getV 0).zeroExtend 16) s)

/-- `3XNN` SE_IMM (R103). -/
def execSeImm (x : Reg) (nn : Byte) (s : State) : Host.Outcome State Fault Refusal :=
  .next (skipIf (s.getV x == nn) s)

/-- `4XNN` SNE_IMM (R104). -/
def execSneImm (x : Reg) (nn : Byte) (s : State) : Host.Outcome State Fault Refusal :=
  .next (skipIf (s.getV x != nn) s)

/-- `5XY0` SE_REG (R105). -/
def execSeReg (x y : Reg) (s : State) : Host.Outcome State Fault Refusal :=
  .next (skipIf (s.getV x == s.getV y) s)

/-- `9XY0` SNE_REG (R106). -/
def execSneReg (x y : Reg) (s : State) : Host.Outcome State Fault Refusal :=
  .next (skipIf (s.getV x != s.getV y) s)

end Sys2Proof.Machine
end

