-- ==== Sys2Proof/Machine/Keys.lean ====
section
/-!
DEFINITION. Key input and timer instructions (spec/45_keys_timers.md). The waiting step itself is
Machine/Ops.lean `waitStep`.
-/

namespace Sys2Proof.Machine

/-- `EX9E` SKP (R180). -/
def execSkp (x : Reg) (s : State) : Host.Outcome State Fault Refusal :=
  .next (skipIf (keyDown8 s.keys (s.getV x)) s)

/-- `EXA1` SKNP (R181). -/
def execSknp (x : Reg) (s : State) : Host.Outcome State Fault Refusal :=
  .next (skipIf (!keyDown8 s.keys (s.getV x)) s)

/-- `FX0A` LD_VX_K: completes at once when a key is down; else the wait begins and PC stays (R183).
UNVERIFIED: that it completes at once is decision D11 (notes/assumptions/11.md). -/
def execLdVxK (x : Reg) (s : State) : Host.Outcome State Fault Refusal :=
  .next (if s.keys ≠ 0 then takeKey x s else { s with awaiting := true, waitX := x })

/-- `FX07` LD_VX_DT: DT before this step's tick (R185). -/
def execLdVxDt (x : Reg) (s : State) : Host.Outcome State Fault Refusal :=
  .next (nextPC (s.setV x s.dt))

/-- `FX15` LD_DT_VX (R186). -/
def execLdDtVx (x : Reg) (s : State) : Host.Outcome State Fault Refusal :=
  .next (nextPC { s with dt := s.getV x })

/-- `FX18` LD_ST_VX (R187). -/
def execLdStVx (x : Reg) (s : State) : Host.Outcome State Fault Refusal :=
  .next (nextPC { s with st := s.getV x })

end Sys2Proof.Machine
end

