-- ==== Sys2Proof/Machine/Load.lean ====
section
/-!
DEFINITION. Immediate loads, index register operations and the random byte
(spec/42_load_index_random.md). None writes VF as a flag; all end with `NextPC()`.
-/

namespace Sys2Proof.Machine

/-- `6XNN` LD_IMM (R120). -/
def execLdImm (x : Reg) (nn : Byte) (s : State) : Host.Outcome State Fault Refusal :=
  .next (nextPC (s.setV x nn))

/-- `7XNN` ADD_IMM: the sum wraps modulo 256 and VF is not touched (R121). -/
def execAddImm (x : Reg) (nn : Byte) (s : State) : Host.Outcome State Fault Refusal :=
  .next (nextPC (s.setV x (s.getV x + nn)))

/-- `ANNN` LD_I (R122). -/
def execLdI (nnn : Imm12) (s : State) : Host.Outcome State Fault Refusal :=
  .next (nextPC (setI (immWord nnn) s))

/-- `CXNN` RND: NN masks the random byte of the step (R123). -/
def execRnd (x : Reg) (nn : Byte) (s : State) : Host.Outcome State Fault Refusal :=
  .next (nextPC (s.setV x (nn &&& s.rnd)))

/-- `FX1E` ADD_I: modulo 2^16, VF not touched (R124). -/
def execAddI (x : Reg) (s : State) : Host.Outcome State Fault Refusal :=
  .next (nextPC (setI (s.i + (s.getV x).zeroExtend 16) s))

/-- `FX29` LD_F: the whole byte times 5 (R125). UNVERIFIED: decision D24 (notes/assumptions/17.md). -/
def execLdF (x : Reg) (s : State) : Host.Outcome State Fault Refusal :=
  .next (nextPC (setI (BitVec.ofNat 16 ((s.getV x).toNat * Config.glyphStride)) s))

end Sys2Proof.Machine
end

