-- ==== Sys2Proof/Machine/Step.lean ====
section
/-!
DEFINITION. The step, the only transition of the CORE while it runs (spec/40_step_cycle.md R80), and the
placing of one instruction word where the next step fetches it.
-/

namespace Sys2Proof.Machine

/-- The instruction part of a step that is not waiting: fetch, decode, execute; an unknown opcode is a
reported no-op (R80, R82, R83, R85). -/
def runInstr (s : State) : Host.Outcome State Fault Refusal :=
  let (op, s₁) := fetch s
  match decodeWord op with
  | some i => exec i s₁
  | none => .next (execUnknown s₁)

/-- `Step(keys, rnd)`: while awaiting a key only the wait step, else an instruction; then the timer tick
(R80, R88). The inputs are the ones `State.sample` reads. -/
def step (s : State) : Host.Outcome State Fault Refusal :=
  onNext endStep
    (if s.awaiting then .next (waitStep (beginStep s)) else runInstr (beginStep s))

/-- The state with an instruction word, given as spec/opcode_table.json numbers its bits, in the two bytes
at PC, high byte first, and not waiting for a key, so that the next step fetches and runs it (when PC is
at most 0xFFE, as it is after reset; above that the bytes do not exist). -/
def State.withFetchWord (s : State) (nbits w : Nat) : State :=
  let a := s.pc.toNat
  let word := tableWord nbits w
  { memWrite (a + 1) (lowByte word) (memWrite a (highByte word) s) with
    ev := s.ev, awaiting := false }

end Sys2Proof.Machine
end

