-- ==== Sys2Proof/Machine/Ports.lean ====
section
/-!
DEFINITION. The host's operations between steps (spec/70_reset_and_hazards.md) and the output ports
(spec/00_scope.md R6).
-/

namespace Sys2Proof.Machine

/-- Puts the bytes of a program at consecutive addresses, in order, through the bounds-checked write
(R253). UNVERIFIED: that the write is checked is decision D19 (notes/assumptions/16.md). -/
def storeProgram : Nat → List Byte → State → State
  | _, [], s => s
  | a, b :: rest, s => storeProgram (a + 1) rest (memWrite a b s)

/-- What loading does to memory and to the event outputs, which are those of this load: nothing else changes
(R253, R255). On memory that holds a program it "overlays the second program on the first" (R254). -/
def loadBytes (bytes : List Byte) (s : State) : State :=
  storeProgram Config.programBase bytes (clearEvents s)

/-- `load(bytes)`, the host's operation: "reset; then load exactly once; then steps" (R254). After a step it
is refused (R254), and so is a second use since reset (spec/93_implementation_defined.md U18;
notes/assumptions/24.md). -/
def load (bytes : List Byte) (s : State) : Host.Outcome State Fault Refusal :=
  if s.stepped then .refused .loadAfterStep
  else if s.loaded then .refused .secondLoad
  else .next { loadBytes bytes s with loaded := true }

/-- `reset`, from any state (R250, R251). What the host will drive on the ports next is the host's and is
not touched (notes/assumptions/1.md). -/
def hostReset (s : State) : State :=
  { State.reset with inputs := s.inputs, samples := s.samples }

/-- The host lines up the inputs of the coming steps (R27, R28, R5: between steps). -/
def driveInputs (inputs : List Inputs) (s : State) : State := { s with inputs := inputs }

/-- The output ports (R6). -/
structure Outputs where
  fb : Frame
  frameChanged : Bool
  awaitingKey : Bool
  evAddrOor : Bool
  evUnknownOpcode : Bool
  dt : Byte
  st : Byte
  deriving DecidableEq, Repr

/-- What the host sees between steps (R6, R87). -/
def outputs (s : State) : Outputs where
  fb := s.fb
  frameChanged := s.ev.frameChanged
  awaitingKey := s.awaiting
  evAddrOor := s.ev.addrOor
  evUnknownOpcode := s.ev.unknownOpcode
  dt := s.dt
  st := s.st

/-- The event vector: bit 0 AddressOutOfRange, bit 1 UnknownOpcode, bit 2 frame changed (R220). -/
def eventVector (ev : Events) : BitVec 3 :=
  BitVec.ofBool ev.frameChanged ++ BitVec.ofBool ev.unknownOpcode ++ BitVec.ofBool ev.addrOor

end Sys2Proof.Machine
end

