-- ==== Sys2Proof/Safety.lean ====
section
/-!
DEFINITION. The terms the claims are made in: which parts of the state a step leaves alone, which parts an
instruction may touch (spec/10_state.md R31, spec/46_memory_ops.md R208), the invariants, what a silent
step is, and the end of a run.
-/

namespace Sys2Proof.Machine

/-! ## Frames -/

/-- The parts of the state that R31 has columns for, with PC, the events, the host's side and
whether a program was loaded. -/
inductive Part where
  | v | i | pc | stack | dt | st | mem | fb | wait | ev | host | loaded
  deriving DecidableEq, Repr

/-- The part reads the same in both states: every register, every slot, every byte of memory, every
cell. -/
def Part.same (s t : State) : Part → Prop
  | .v => ∀ r, t.getV r = s.getV r
  | .i => t.i = s.i
  | .pc => t.pc = s.pc
  | .stack => (∀ k, t.slot k = s.slot k) ∧ t.sp = s.sp
  | .dt => t.dt = s.dt
  | .st => t.st = s.st
  | .mem => ∀ a, t.byteAt a = s.byteAt a
  | .fb => ∀ row col, t.fb.cell row col = s.fb.cell row col
  | .wait => t.awaiting = s.awaiting ∧ t.waitX = s.waitX
  | .ev => t.ev = s.ev
  | .host => t.inputs = s.inputs ∧ t.samples = s.samples ∧ t.stepped = s.stepped
  | .loaded => t.loaded = s.loaded

/-- From `s` to `t` nothing but the listed parts changed. -/
def OnlyChanges (ps : List Part) (s t : State) : Prop := ∀ p, p ∉ ps → p.same s t

/-- The parts an instruction may change: the `w` columns of R31, with PC, and the events for those
that access data memory or draw. -/
def writesOf : Instr → List Part
  | .cls => [.pc, .fb]
  | .ret | .call _ => [.pc, .stack]
  | .jp _ | .jpV0 _ | .seImm _ _ | .sneImm _ _ | .seReg _ _ | .sneReg _ _ | .skp _ | .sknp _ => [.pc]
  | .ldImm _ _ | .addImm _ _ | .rnd _ _ | .ldVxDt _ => [.pc, .v]
  | .mov _ _ | .or _ _ | .and _ _ | .xor _ _ | .add _ _ | .sub _ _ | .shr _ _ | .subn _ _
  | .shl _ _ => [.pc, .v]
  | .ldI _ | .addI _ | .ldF _ => [.pc, .i]
  | .drw _ _ _ => [.pc, .v, .fb, .ev]
  | .ldVxK _ => [.pc, .v, .wait]
  | .ldDtVx _ => [.pc, .dt]
  | .ldStVx _ => [.pc, .st]
  | .ldB _ => [.pc, .mem, .ev]
  | .stRegs _ => [.pc, .mem, .i, .ev]
  | .ldRegs _ => [.pc, .v, .i, .ev]

/-- The general registers an instruction may change, VF as a flag included (R11, R12). -/
def regsWrittenBy (i : Instr) (r : Reg) : Bool :=
  match i with
  | .ldImm x _ | .addImm x _ | .rnd x _ | .ldVxDt x | .ldVxK x => r == x
  | .mov x _ | .or x _ | .and x _ | .xor x _ => r == x
  | .add x _ | .sub x _ | .shr x _ | .subn x _ => r == x || r == Reg.vf
  | .shl x y => r == x || r == y || r == Reg.vf
  | .drw _ _ _ => r == Reg.vf
  | .ldRegs x => decide (r ≤ x)
  | .cls | .ret | .jp _ | .call _ | .seImm _ _ | .sneImm _ _ | .seReg _ _ | .sneReg _ _ | .ldI _
  | .jpV0 _ | .skp _ | .sknp _ | .ldDtVx _ | .ldStVx _ | .addI _ | .ldF _ | .ldB _
  | .stRegs _ => false

/-- The instruction reads `keys` (R27, R31). -/
def readsKeys : Instr → Bool
  | .skp _ | .sknp _ | .ldVxK _ => true
  | .cls | .ret | .jp _ | .call _ | .seImm _ _ | .sneImm _ _ | .seReg _ _ | .sneReg _ _ | .ldImm _ _
  | .addImm _ _ | .mov _ _ | .or _ _ | .and _ _ | .xor _ _ | .add _ _ | .sub _ _ | .shr _ _
  | .subn _ _ | .shl _ _ | .ldI _ | .jpV0 _ | .rnd _ _ | .drw _ _ _ | .ldVxDt _ | .ldDtVx _
  | .ldStVx _ | .addI _ | .ldF _ | .ldB _ | .stRegs _ | .ldRegs _ => false

/-- The instruction reads `rnd` (R28, R31). -/
def readsRnd : Instr → Bool
  | .rnd _ _ => true
  | .cls | .ret | .jp _ | .call _ | .seImm _ _ | .sneImm _ _ | .seReg _ _ | .sneReg _ _ | .ldImm _ _
  | .addImm _ _ | .mov _ _ | .or _ _ | .and _ _ | .xor _ _ | .add _ _ | .sub _ _ | .shr _ _
  | .subn _ _ | .shl _ _ | .ldI _ | .jpV0 _ | .skp _ | .sknp _ | .ldVxK _ | .drw _ _ _ | .ldVxDt _
  | .ldDtVx _ | .ldStVx _ | .addI _ | .ldF _ | .ldB _ | .stRegs _ | .ldRegs _ => false

/-! ## Memory accesses and the sprite -/

/-- The address of the k-th transfer of `FX55` and `FX65`: I after k 16-bit increments (R208). -/
def blockAddr (s : State) (k : Nat) : Nat := (s.i.toNat + k) % 65536

/-- The effective addresses of an instruction's data accesses (R208). -/
def dataAddrs (i : Instr) (s : State) : List Nat :=
  match i with
  | .drw _ _ n => (List.range n.toNat).map (addrAtI s)
  | .ldB _ => (List.range 3).map (addrAtI s)
  | .stRegs x | .ldRegs x => (List.range (x.val + 1)).map (blockAddr s)
  | .cls | .ret | .jp _ | .call _ | .seImm _ _ | .sneImm _ _ | .seReg _ _ | .sneReg _ _ | .ldImm _ _
  | .addImm _ _ | .mov _ _ | .or _ _ | .and _ _ | .xor _ _ | .add _ _ | .sub _ _ | .shr _ _
  | .subn _ _ | .shl _ _ | .ldI _ | .jpV0 _ | .rnd _ _ | .skp _ | .sknp _ | .ldVxDt _ | .ldVxK _
  | .ldDtVx _ | .ldStVx _ | .addI _ | .ldF _ => []

/-- The sprite of n rows at I, placed at (x0, y0), has a 1 bit on the cell: sprite row r falls on row
`(y0 + r) mod 32`, bit offset k, which is bit 7 - k of the row's byte, on column `(x0 + k) mod 64`
(R162, R164). -/
def spriteOn (s : State) (x0 y0 : Byte) (n : Nat) (row : Fin 32) (col : Fin 64) : Bool :=
  (List.range n).any fun r => (List.range 8).any fun k =>
    decide (row.val = (y0.toNat + r) % 32) && decide (col.val = (x0.toNat + k) % 64)
      && (s.byteAt (s.i.toNat + r)).getLsbD (7 - k)

/-- Some cell that is 1 lies under a 1 bit of the sprite, so the blit turns it off (R162). -/
def SpriteCollides (s : State) (x0 y0 : Byte) (n : Nat) : Prop :=
  ∃ row col, s.fb.cell row col = true ∧ spriteOn s x0 y0 n row col = true

/-! ## Steps -/

/-- The instruction the next step executes: none while awaiting a key, none for an unknown opcode
(R80, R85). -/
def executed (s : State) : Option Instr :=
  if s.awaiting then none else decodeWord (fetchedWord s)

/-- No condition was reported in the last step. A host's strict mode (R224, spec/92_eei_decisions.md D17)
would stop at a step that is not silent; the hardware goes on. -/
def Silent (s : State) : Prop := s.ev.addrOor = false ∧ s.ev.unknownOpcode = false

/-! ## Invariants -/

/-- Memory is in its canonical form. -/
def MemoryCanonical (s : State) : Prop := s.mem.wf

/-- No call-stack slot holds more than 0x1001, the largest value ever pushed (R102). -/
def StackBounded (s : State) : Prop := ∀ k, (s.slot k).toNat ≤ 0x1001

/-- While a key is awaited, the word at PC is the `FX0A` that started the wait, and it names the register
the wait targets (R86, R26). -/
def WaitsAtItsInstr (s : State) : Prop :=
  s.awaiting = true → decodeWord (fetchedWord s) = some (.ldVxK s.waitX)

/-! ## Runs -/

/-- The machine after n steps (the host's run of `Sys2Proof.core`). -/
def runSteps (n : Nat) (s : State) : Host.Outcome State Fault Refusal := Sys2Proof.core.run n s

/-- PC is at a `1NNN` that jumps to its own address (R263). -/
def atSelfJump (s : State) : Bool :=
  match executed s with
  | some (.jp nnn) => immWord nnn == s.pc
  | _ => false

/-- A run to its end (R263): a fixed number of steps, or until a self-jump is reached; `none` when the
self-jump is not reached in time. -/
def runTo : Config.EndOfRun → State → Option (Host.Outcome State Fault Refusal)
  | .stepCount n, s => some (runSteps n s)
  | .selfJump n, s =>
    ((List.range (n + 1)).map (fun k => runSteps k s)).find? fun o =>
      match o with
      | .next t => atSelfJump t
      | _ => true

end Sys2Proof.Machine
end

