-- ==== Sys2Proof/Certificates/Slice0/Obligations.lean ====
section
/-!
DEFINITION. The statements for the provers, from the spec's numbered rules. Every statement about an
instruction holds for every operand and every state, and has as its conclusion that `exec` answers a
next state; there is no form of an instruction that stops. PC + 2 and PC + 4 are 16-bit additions: that
they wrap is the spec's own decision D3 (spec/92_eei_decisions.md, notes/assumptions/3.md); "PC: D3" in a
docstring says that the statement rests on it. The other decisions are named where a statement rests on one.
-/

open Sys2Proof Sys2Proof.Machine

/-! ## Reset, load, memory -/

/-- R46: the glyph table is in memory after reset, digit d at 5d to 5d + 4, each byte with a low nibble of
0, and `FX29` computes 5 * V[X]. -/
def Obligations.GlyphTableAfterReset : Prop :=
  let rows : List (List Byte) := [
    [0xF0, 0x90, 0x90, 0x90, 0xF0], [0x20, 0x60, 0x20, 0x20, 0x70],
    [0xF0, 0x10, 0xF0, 0x80, 0xF0], [0xF0, 0x10, 0xF0, 0x10, 0xF0],
    [0x90, 0x90, 0xF0, 0x10, 0x10], [0xF0, 0x80, 0xF0, 0x10, 0xF0],
    [0xF0, 0x80, 0xF0, 0x90, 0xF0], [0xF0, 0x10, 0x20, 0x40, 0x40],
    [0xF0, 0x90, 0xF0, 0x90, 0xF0], [0xF0, 0x90, 0xF0, 0x10, 0xF0],
    [0xF0, 0x90, 0xF0, 0x90, 0x90], [0xE0, 0x90, 0xE0, 0x90, 0xE0],
    [0xF0, 0x80, 0x80, 0x80, 0xF0], [0xE0, 0x90, 0x90, 0x90, 0xE0],
    [0xF0, 0x80, 0xF0, 0x80, 0xF0], [0xF0, 0x80, 0xF0, 0x80, 0x80]]
  (∀ s, s = State.reset ∨ (∃ u, s = hostReset u) →
    ∀ d < 16, ∀ j < 5, s.byteAt (5 * d + j) = (rows.getD d []).getD j 0
      ∧ (s.byteAt (5 * d + j)).toNat % 16 = 0)
  ∧ ∀ x s, ∃ t, exec (.ldF x) s = .next t ∧ t.i.toNat = 5 * (s.getV x).toNat

/-- R30, R250, R251: after reset, from whatever state, PC is 0x200, SP is 0, and every other register, slot,
timer and cell, the wait, the events and memory above the glyph table are 0 (the glyph table itself:
GlyphTableAfterReset). Only PC and SP are RXC's; the zeros are the spec's own decision D2
(spec/92_eei_decisions.md, notes/assumptions/2.md), and that `stepped` and `loaded` are false is the
model's choice (notes/assumptions/4.md). -/
def Obligations.ResetLeavesTheTableOfValues : Prop :=
  ∀ s, s = State.reset ∨ (∃ u, s = hostReset u) →
    s.pc = 0x200 ∧ s.sp = 0 ∧ (∀ r, s.getV r = 0) ∧ s.i = 0 ∧ (∀ k, s.slot k = 0)
    ∧ s.dt = 0 ∧ s.st = 0 ∧ (∀ a, 80 ≤ a → s.byteAt a = 0)
    ∧ (∀ row col, s.fb.cell row col = false) ∧ s.awaiting = false ∧ s.waitX = 0
    ∧ s.ev = ⟨false, false, false⟩ ∧ s.stepped = false ∧ s.loaded = false

/-- R41: a read in range answers the stored byte and changes nothing; above 0xFFF it answers 0 and only
signals AddressOutOfRange. -/
def Obligations.ReadIsBoundsChecked : Prop :=
  ∀ a s, ∃ t, memRead a s = (if a > 0xFFF then 0 else s.mem.read a, t) ∧ OnlyChanges [.ev] s t ∧
    if a > 0xFFF then t.ev = { s.ev with addrOor := true } else t.ev = s.ev

/-- R42: a write in range stores the byte there and nowhere else; above 0xFFF it stores nothing and only
signals AddressOutOfRange. -/
def Obligations.WriteIsBoundsChecked : Prop :=
  ∀ a x s, if a > 0xFFF then
      OnlyChanges [.ev] s (memWrite a x s) ∧ (memWrite a x s).ev = { s.ev with addrOor := true }
    else
      (memWrite a x s).byteAt a = x ∧ (∀ b, b ≠ a → (memWrite a x s).byteAt b = s.byteAt b)
      ∧ OnlyChanges [.mem] s (memWrite a x s)

/-- R253, R255 (dropping the excess is decision D19): in every state, loading puts byte k at 0x200 + k where
that address exists, over whatever stood there, changes nothing else in memory, no register and no cell, and
reports AddressOutOfRange exactly when the program is longer than 3584 bytes. The host's `load` does this
when neither a step nor a load has happened since reset (R254). Two clauses are the model's choice, DESIGN
CHOICE: that a load clears the other two event outputs, which State holds (notes/assumptions/5.md), and that
`load` records its use by setting `loaded` (notes/assumptions/4.md). -/
def Obligations.LoadPlacesTheProgram : Prop :=
  ∀ bytes s, let t := loadBytes bytes s
    (∀ a, t.byteAt a =
      if 0x200 ≤ a ∧ a < 0x200 + bytes.length ∧ a ≤ 0xFFF then bytes.getD (a - 0x200) 0
      else s.byteAt a)
    ∧ t.ev = ⟨decide (bytes.length > 3584), false, false⟩ ∧ OnlyChanges [.mem, .ev] s t
    ∧ (s.stepped = false → s.loaded = false → load bytes s = .next { t with loaded := true })

/-- R254: once a step has run since reset, `load` is refused; after every reset it is not. -/
def Obligations.LoadIsRefusedAfterAStep : Prop :=
  (∀ bytes s t, step s = .next t → load bytes t = .refused .loadAfterStep)
  ∧ ∀ bytes s, ∃ t, load bytes (hostReset s) = .next t

/-- R254 ("load exactly once") with spec/93_implementation_defined.md U18: a second `load` without a reset
in between is refused, and no host operation but reset, and no step, makes it possible again (that U18
decides over R254's overlay is the model's reading, notes/assumptions/24.md). -/
def Obligations.SecondLoadIsRefused : Prop :=
  (∀ bytes s t, load bytes s = .next t → ∀ bytes', load bytes' t = .refused .secondLoad)
  ∧ (∀ s, s.loaded = true → ∀ bytes t, load bytes s ≠ .next t)
  ∧ (∀ s t, step s = .next t → t.loaded = s.loaded)
  ∧ ∀ s inputs, (driveInputs inputs s).loaded = s.loaded

/-! ## Encoding -/

/-- R61, R65, R71: decoding the bytes of any instruction gives it back, and leaves the bytes after it. -/
def Obligations.DecodeOfEncodeIsTheInstruction : Prop :=
  ∀ i rest, i.wellFormed = true → decode (encode i ++ rest) = .ok (i, rest)

/-- R65: a word has one meaning: the word that decodes to an instruction is the one that instruction
encodes to. -/
def Obligations.EncodeOfDecodeIsTheWord : Prop :=
  ∀ op i, decodeWord op = some i → encodeWord i = op

/-- R64, R83: selection by mask and match and RXC's two-level dispatch give the same instruction for every
word (with the exact match of R66, the spec's decision D8). -/
def Obligations.TableAndDispatchSelectTheSame : Prop := ∀ op, decodeWord op = dispatchWord op

/-- R67: the unknown words, family by family, as its table lists them (family 0 by the spec's decision
D9, families 5 and 9 by D8). -/
def Obligations.UnknownWordsAreTheListed : Prop :=
  ∀ op, decodeWord op = none ↔
    (familyOf op = 0x0 ∧ nnnOf op ≠ 0x0E0 ∧ nnnOf op ≠ 0x0EE)
    ∨ (familyOf op = 0x5 ∧ nOf op ≠ 0) ∨ (familyOf op = 0x9 ∧ nOf op ≠ 0)
    ∨ (familyOf op = 0x8 ∧ nOf op ∈ [0x8, 0x9, 0xA, 0xB, 0xC, 0xD, 0xF])
    ∨ (familyOf op = 0xE ∧ nnOf op ∉ [0x9E, 0xA1])
    ∨ (familyOf op = 0xF ∧ nnOf op ∉ [0x07, 0x0A, 0x15, 0x18, 0x1E, 0x29, 0x33, 0x55, 0x65])

/-- R65, R71, R44: words written out from the patterns decode to the instructions they stand for, three
words no pattern has decode to none (R67), and the four examples of R71 encode to the bytes it gives, high
byte first, which decode back. -/
def Obligations.WrittenOutWordsDecode : Prop :=
  decodeWord 0x00E0 = some .cls ∧ decodeWord 0x00EE = some .ret
  ∧ decodeWord 0x2ABC = some (.call 0xABC) ∧ decodeWord 0x3A42 = some (.seImm 10 0x42)
  ∧ decodeWord 0x812E = some (.shl 1 2) ∧ decodeWord 0x9AB0 = some (.sneReg 10 11)
  ∧ decodeWord 0xD125 = some (.drw 1 2 5) ∧ decodeWord 0xE4A1 = some (.sknp 4)
  ∧ decodeWord 0xF365 = some (.ldRegs 3)
  ∧ decodeWord 0x01E0 = none ∧ decodeWord 0x5121 = none ∧ decodeWord 0xFFFF = none
  ∧ encode (.ldImm 0 0x05) = [0x60, 0x05] ∧ encode (.drw 0 0 5) = [0xD0, 0x05]
  ∧ encode (.ldF 0) = [0xF0, 0x29] ∧ encode (.jp 0x200) = [0x12, 0x00]
  ∧ decode [0xD0, 0x05] = .ok (.drw 0 0 5, []) ∧ decode [0x12, 0x00] = .ok (.jp 0x200, [])

/-! ## The step -/

/-- R80, R82, R83: a step that is not waiting, at a word that decodes to i, is exec of i, on the state with
the events of the fetch alone, followed by the end of the step. (That PC + 1 is the exact sum, so that
PC = 0xFFF already reports, is the spec's decision D4.) -/
def Obligations.StepRunsTheDecodedInstruction : Prop :=
  ∀ s i, s.awaiting = false → decodeWord (fetchedWord s) = some i →
    step s = onNext endStep (exec i { s with ev := ⟨decide (0xFFF ≤ s.pc.toNat), false, false⟩ })

/-- R44, R82: in every state the fetched word is the byte at PC times 256 plus the byte at PC + 1, so with
an instruction's two bytes there, high byte first, it decodes to that instruction. `withFetchWord` places a
word so: bits 15:8 at PC, bits 7:0 at PC + 1, and nothing but those two bytes and the wait changes (that it
ends a wait is the model's choice, notes/assumptions/6.md; that PC + 1 is the exact sum is the spec's
decision D4). -/
def Obligations.PlacedWordIsFetched : Prop :=
  (∀ s, (fetchedWord s).toNat =
    256 * (s.byteAt s.pc.toNat).toNat + (s.byteAt (s.pc.toNat + 1)).toNat)
  ∧ (∀ s i, (s.byteAt s.pc.toNat).toNat = (encodeWord i).toNat / 256 →
      (s.byteAt (s.pc.toNat + 1)).toNat = (encodeWord i).toNat % 256 →
      decodeWord (fetchedWord s) = some i)
  ∧ ∀ s w, s.pc.toNat < 0xFFF →
    let t := s.withFetchWord 16 w
    (t.byteAt s.pc.toNat).toNat = w / 256 % 256 ∧ (t.byteAt (s.pc.toNat + 1)).toNat = w % 256
    ∧ fetchedWord t = BitVec.ofNat 16 w ∧ decodeTableWord 16 w = decodeWord (BitVec.ofNat 16 w)
    ∧ (∀ a, a ≠ s.pc.toNat → a ≠ s.pc.toNat + 1 → t.byteAt a = s.byteAt a)
    ∧ t.awaiting = false ∧ t.waitX = s.waitX ∧ OnlyChanges [.mem, .wait] s t

/-- R81 (derived there from every instruction rule): every state has a next state; no step faults and
none is refused. -/
def Obligations.EveryStateHasANextState : Prop := ∀ s, ∃ t, step s = .next t

/-- R85, R222: an unknown opcode is a reported no-op: PC + 2, the timers tick, nothing else changes
(PC: D3). -/
def Obligations.UnknownOpcodeIsAReportedNoOp : Prop :=
  ∀ s, s.awaiting = false → decodeWord (fetchedWord s) = none →
    ∃ t, step s = .next t ∧ t.pc = s.pc + 2 ∧ t.ev.unknownOpcode = true ∧ t.ev.frameChanged = false
      ∧ t.dt.toNat = s.dt.toNat - 1 ∧ t.st.toNat = s.st.toNat - 1
      ∧ OnlyChanges [.pc, .dt, .st, .ev, .host] s t

/-- R82, R226 (derived there): with PC above 0xFFF the word is 0x0000 and the step reports both
AddressOutOfRange and UnknownOpcode and advances PC (PC: D3). -/
def Obligations.FetchAboveMemoryIsReported : Prop :=
  ∀ s, s.awaiting = false → s.pc.toNat > 0xFFF →
    fetchedWord s = 0x0000 ∧
      ∃ t, step s = .next t ∧ t.pc = s.pc + 2 ∧ t.ev = ⟨true, true, false⟩
        ∧ OnlyChanges [.pc, .dt, .st, .ev, .host] s t

/-- R23, R88, R186, R187: every step ticks both timers once, last; a timer written by `FX15` or `FX18` is
ticked in the same step (the spec's decision D13). -/
def Obligations.EveryStepTicksTheTimersLast : Prop :=
  ∀ s t, step s = .next t →
    (∀ x, executed s = some (.ldDtVx x) → t.dt.toNat = (s.getV x).toNat - 1)
    ∧ ((∀ x, executed s ≠ some (.ldDtVx x)) → t.dt.toNat = s.dt.toNat - 1)
    ∧ (∀ x, executed s = some (.ldStVx x) → t.st.toNat = (s.getV x).toNat - 1)
    ∧ ((∀ x, executed s ≠ some (.ldStVx x)) → t.st.toNat = s.st.toNat - 1)

/-- R87, R221, R222, R163: each event output is 1 exactly when the step did what it reports: an access
above 0xFFF by the fetch or at an effective address of R208; an unknown opcode; a `DXYN`. -/
def Obligations.EventsReportWhatTheStepDid : Prop :=
  ∀ s t, step s = .next t →
    (t.ev.frameChanged = true ↔ ∃ x y n, executed s = some (.drw x y n))
    ∧ (t.ev.unknownOpcode = true ↔ s.awaiting = false ∧ executed s = none)
    ∧ (t.ev.addrOor = true ↔ s.awaiting = false ∧
        (s.pc.toNat ≥ 0xFFF ∨ ∃ i, executed s = some i ∧ ∃ a ∈ dataAddrs i s, a > 0xFFF))

/-- R224, R221, R222: a step is silent exactly when it waits for a key, or fetches below 0xFFF a known
instruction whose data addresses are all in range: stack wrap, return at SP = 0, a key number above 15,
PC or I leaving memory and arithmetic overflow report nothing. -/
def Obligations.SilentStepsAreTheInRangeOnes : Prop :=
  ∀ s t, step s = .next t →
    (Silent t ↔ s.awaiting = true ∨
      (s.pc.toNat < 0xFFF ∧ ∃ i, executed s = some i ∧ ∀ a ∈ dataAddrs i s, a ≤ 0xFFF))

/-! ## What an instruction may touch -/

/-- R31 (derived there), R11, R12, R14, R24: an instruction changes nothing but the parts its row marks
`w`, with PC and the events; and of the general registers only its destinations and, for the six that
set it, VF. -/
def Obligations.InstructionsWriteOnlyTheirColumns : Prop :=
  ∀ i s t, exec i s = .next t →
    OnlyChanges (writesOf i) s t ∧ ∀ r, regsWrittenBy i r = false → t.getV r = s.getV r

/-- R27, R28, R31: `keys` reach only `EX9E`, `EXA1` and `FX0A`, and `rnd` only `CXNN`: with other inputs
lined up that agree in what the instruction reads, everything it does is the same. -/
def Obligations.InputsReachOnlyTheirReaders : Prop :=
  ∀ i s inputs, (readsKeys i = true → (driveInputs inputs s).keys = s.keys) →
    (readsRnd i = true → (driveInputs inputs s).rnd = s.rnd) →
    exec i (driveInputs inputs s) = onNext (driveInputs inputs) (exec i s)

/-! ## Control transfer -/

/-- R100, R19: RET puts the popped slot into PC; the pointer goes down by one, not below 0, and the slot is
kept. -/
def Obligations.RetPopsIntoPc : Prop :=
  ∀ s, ∃ t, exec .ret s = .next t ∧ t.sp.toNat = s.sp.toNat - 1 ∧ t.pc = s.slot t.sp
    ∧ (∀ k, t.slot k = s.slot k) ∧ OnlyChanges [.pc, .stack] s t

/-- R101: a word with 1 in its top nibble is JP with NNN = op[11:0]; JP loads PC with NNN, and that is all
it does (no flag, no event). -/
def Obligations.JpLoadsPc : Prop :=
  (∀ op, op &&& 0xF000 = 0x1000 → decodeWord op = some (.jp (nnnOf op)))
  ∧ ∀ nnn s, ∃ t, exec (.jp nnn) s = .next t ∧ t.pc.toNat = nnn.toNat ∧ OnlyChanges [.pc] s t

/-- R107: a word with B in its top nibble is JP_V0 with NNN = op[11:0]; JP_V0 loads PC with NNN + V[0],
whatever the X nibble; the sum fits. -/
def Obligations.JpV0AddsV0 : Prop :=
  (∀ op, op &&& 0xF000 = 0xB000 → decodeWord op = some (.jpV0 (nnnOf op)))
  ∧ ∀ nnn s, ∃ t, exec (.jpV0 nnn) s = .next t ∧ t.pc.toNat = nnn.toNat + (s.getV 0).toNat
    ∧ OnlyChanges [.pc] s t

/-- R102, R18: CALL stores PC + 2 in the slot at SP, advances SP modulo 16 (the silent wrap is the spec's
decision D5) and jumps (PC: D3). -/
def Obligations.CallPushesTheReturnAddress : Prop :=
  ∀ nnn s, ∃ t, exec (.call nnn) s = .next t ∧ t.pc.toNat = nnn.toNat
    ∧ t.slot s.sp = s.pc + 2 ∧ (∀ k, k ≠ s.sp → t.slot k = s.slot k)
    ∧ t.sp.toNat = (s.sp.toNat + 1) % 16 ∧ OnlyChanges [.pc, .stack] s t

/-- R18, R19, R102 (spec/90_conflicts.md C4): CALL and then RET comes back to PC + 2 with the SP from
before, unless SP was 15; then it goes to slot 0 and SP stays 0 (PC: D3). -/
def Obligations.CallThenRetReturns : Prop :=
  ∀ nnn s, ∃ t u, exec (.call nnn) s = .next t ∧ exec .ret t = .next u ∧
    if s.sp = 15 then u.pc = s.slot 0 ∧ u.sp = 0 else u.pc = s.pc + 2 ∧ u.sp = s.sp

/-- R103, R104, R108, R84: SE_IMM and SNE_IMM advance PC by 4 when their condition holds and by 2
otherwise, and change nothing else (PC: D3). -/
def Obligations.ImmediateSkips : Prop :=
  ∀ x nn s,
    (∃ t, exec (.seImm x nn) s = .next t ∧ OnlyChanges [.pc] s t
      ∧ t.pc = if s.getV x = nn then s.pc + 4 else s.pc + 2)
    ∧ (∃ t, exec (.sneImm x nn) s = .next t ∧ OnlyChanges [.pc] s t
      ∧ t.pc = if s.getV x = nn then s.pc + 2 else s.pc + 4)

/-- R105, R106, R108, R84: SE_REG and SNE_REG, which compare V[X] with V[Y], advance PC by 4 when their
condition holds and by 2 otherwise, and change nothing else (PC: D3). -/
def Obligations.RegisterSkips : Prop :=
  ∀ x y s,
    (∃ t, exec (.seReg x y) s = .next t ∧ OnlyChanges [.pc] s t
      ∧ t.pc = if s.getV x = s.getV y then s.pc + 4 else s.pc + 2)
    ∧ (∃ t, exec (.sneReg x y) s = .next t ∧ OnlyChanges [.pc] s t
      ∧ t.pc = if s.getV x = s.getV y then s.pc + 2 else s.pc + 4)

/-- R180, R181, R182: SKP skips when the key numbered V[X] is down and SKNP when it is not; a number above
15 reads as not down (the spec's decision D10) (PC: D3). -/
def Obligations.KeySkips : Prop :=
  ∀ x s,
    let down : Prop := (s.getV x).toNat ≤ 15 ∧ s.keys.getLsbD (s.getV x).toNat = true
    (∃ t, exec (.skp x) s = .next t ∧ OnlyChanges [.pc] s t
      ∧ (down → t.pc = s.pc + 4) ∧ (¬down → t.pc = s.pc + 2))
    ∧ (∃ t, exec (.sknp x) s = .next t ∧ OnlyChanges [.pc] s t
      ∧ (down → t.pc = s.pc + 2) ∧ (¬down → t.pc = s.pc + 4))

/-! ## Immediates, index register, random byte -/

/-- R120: LD_IMM puts NN into V[X], changes no other register and advances PC (PC: D3). -/
def Obligations.LdImmLoadsTheByte : Prop :=
  ∀ x nn s, ∃ t, exec (.ldImm x nn) s = .next t ∧ t.getV x = nn ∧ (∀ r, r ≠ x → t.getV r = s.getV r)
    ∧ t.pc = s.pc + 2 ∧ OnlyChanges [.pc, .v] s t

/-- R121: ADD_IMM adds modulo 256; VF, unless it is X, keeps its value also when the sum exceeds 0xFF
(PC: D3). -/
def Obligations.AddImmAddsWithoutAFlag : Prop :=
  ∀ x nn s, ∃ t, exec (.addImm x nn) s = .next t
    ∧ (t.getV x).toNat = ((s.getV x).toNat + nn.toNat) % 256
    ∧ (∀ r, r ≠ x → t.getV r = s.getV r) ∧ t.pc = s.pc + 2 ∧ OnlyChanges [.pc, .v] s t

/-- R122, R124, R125, R13: LD_I loads NNN; ADD_I adds V[X] modulo 2^16 (no register, VF included,
changes); LD_F multiplies the whole byte by 5 (the spec's decision D24) (PC: D3). -/
def Obligations.IndexRegisterInstructions : Prop :=
  (∀ nnn s, ∃ t, exec (.ldI nnn) s = .next t ∧ t.i.toNat = nnn.toNat ∧ t.pc = s.pc + 2
    ∧ OnlyChanges [.pc, .i] s t)
  ∧ (∀ x s, ∃ t, exec (.addI x) s = .next t
    ∧ t.i.toNat = (s.i.toNat + (s.getV x).toNat) % 65536 ∧ t.pc = s.pc + 2
    ∧ OnlyChanges [.pc, .i] s t)
  ∧ (∀ x s, ∃ t, exec (.ldF x) s = .next t ∧ t.i.toNat = (s.getV x).toNat * 5 ∧ t.pc = s.pc + 2
    ∧ OnlyChanges [.pc, .i] s t)

/-- R123, R28: RND puts NN and `rnd` into V[X], for EVERY value of the input (also where it is a free
value): a bit where NN has 0 is 0, a bit where NN has 1 is the input's (PC: D3). -/
def Obligations.RndMasksTheRandomByte : Prop :=
  ∀ x nn s, ∃ t, exec (.rnd x nn) s = .next t
    ∧ (∀ k < 8, (t.getV x).getLsbD k = if nn.getLsbD k then s.rnd.getLsbD k else false)
    ∧ (∀ r, r ≠ x → t.getV r = s.getV r) ∧ t.pc = s.pc + 2 ∧ OnlyChanges [.pc, .v] s t

/-! ## ALU family -/

/-- R141 to R144: MOV, OR, AND, XOR write V[X] and no flag (PC: D3). -/
def Obligations.MovAndLogic : Prop :=
  ∀ x y s,
    let writes (i : Instr) (b : Byte) : Prop :=
      ∃ t, exec i s = .next t ∧ t.getV x = b ∧ (∀ r, r ≠ x → t.getV r = s.getV r)
        ∧ t.pc = s.pc + 2 ∧ OnlyChanges [.pc, .v] s t
    writes (.mov x y) (s.getV y) ∧ writes (.or x y) (s.getV x ||| s.getV y)
    ∧ writes (.and x y) (s.getV x &&& s.getV y) ∧ writes (.xor x y) (s.getV x ^^^ s.getV y)

/-- R145, R140, R150: ADD puts the sum modulo 256 into V[X] and the carry into VF; the flag is written last,
so with X = 0xF it stays (the spec's decision D14) (PC: D3). -/
def Obligations.AddSetsCarry : Prop :=
  ∀ x y s, ∃ t, exec (.add x y) s = .next t
    ∧ (x ≠ 15 → (t.getV x).toNat = ((s.getV x).toNat + (s.getV y).toNat) % 256)
    ∧ (t.getV 15).toNat = (if (s.getV x).toNat + (s.getV y).toNat > 0xFF then 1 else 0)
    ∧ (∀ r, r ≠ x → r ≠ 15 → t.getV r = s.getV r) ∧ t.pc = s.pc + 2 ∧ OnlyChanges [.pc, .v] s t

/-- R146, R148, R140, R150: SUB is V[X] - V[Y] and SUBN is V[Y] - V[X], modulo 256; VF is 1 when there is
NO borrow, so also for equal operands, and is written last (D14) (PC: D3). -/
def Obligations.SubAndSubnSetNotBorrow : Prop :=
  ∀ x y s,
    let a := (s.getV x).toNat
    let b := (s.getV y).toNat
    (∃ t, exec (.sub x y) s = .next t
      ∧ (x ≠ 15 → (t.getV x).toNat = if a < b then a + 256 - b else a - b)
      ∧ (t.getV 15).toNat = (if a < b then 0 else 1)
      ∧ (∀ r, r ≠ x → r ≠ 15 → t.getV r = s.getV r) ∧ t.pc = s.pc + 2 ∧ OnlyChanges [.pc, .v] s t)
    ∧ (∃ t, exec (.subn x y) s = .next t
      ∧ (x ≠ 15 → (t.getV x).toNat = if b < a then b + 256 - a else b - a)
      ∧ (t.getV 15).toNat = (if b < a then 0 else 1)
      ∧ (∀ r, r ≠ x → r ≠ 15 → t.getV r = s.getV r) ∧ t.pc = s.pc + 2 ∧ OnlyChanges [.pc, .v] s t)

/-- R147, R149, R140, R150: both shifts take V[Y]; SHR writes V[X] alone, SHL writes V[X] and V[Y]; VF
gets the bit shifted out, last (D14) (PC: D3). -/
def Obligations.ShiftsTakeVy : Prop :=
  ∀ x y s,
    let b := (s.getV y).toNat
    (∃ t, exec (.shr x y) s = .next t ∧ (x ≠ 15 → (t.getV x).toNat = b / 2)
      ∧ (t.getV 15).toNat = b % 2
      ∧ (∀ r, r ≠ x → r ≠ 15 → t.getV r = s.getV r) ∧ t.pc = s.pc + 2 ∧ OnlyChanges [.pc, .v] s t)
    ∧ (∃ t, exec (.shl x y) s = .next t ∧ (x ≠ 15 → (t.getV x).toNat = b * 2 % 256)
      ∧ (y ≠ 15 → (t.getV y).toNat = b * 2 % 256) ∧ (t.getV 15).toNat = b / 128
      ∧ (∀ r, r ≠ x → r ≠ y → r ≠ 15 → t.getV r = s.getV r) ∧ t.pc = s.pc + 2
      ∧ OnlyChanges [.pc, .v] s t)

/-! ## Framebuffer -/

/-- R160: CLS sets every cell to 0; VF and the events, `frame_changed` among them, are not touched (the
last is the spec's decision D16) (PC: D3). -/
def Obligations.ClsClearsEveryCell : Prop :=
  ∀ s, ∃ t, exec .cls s = .next t ∧ (∀ row col, t.fb.cell row col = false) ∧ t.pc = s.pc + 2
    ∧ OnlyChanges [.pc, .fb] s t

/-- R161, R162, R163, R164, R12: after DRW every cell is its old value XOR the sprite's bit on it (wrapped
per pixel, bit 7 leftmost: the spec's decisions D6, D7); VF is 1 when some 1 cell lay under a 1 bit, else
0, both with the V[X] and V[Y] from before (D14); `frame_changed` is set by every draw; a row above 0xFFF
is reported (PC: D3). -/
def Obligations.DrwXorsTheSprite : Prop :=
  ∀ x y n s, ∃ t, exec (.drw x y n) s = .next t
    ∧ (∀ row col, t.fb.cell row col =
        (s.fb.cell row col ^^ spriteOn s (s.getV x) (s.getV y) n.toNat row col))
    ∧ (SpriteCollides s (s.getV x) (s.getV y) n.toNat → t.getV 15 = 1)
    ∧ (¬SpriteCollides s (s.getV x) (s.getV y) n.toNat → t.getV 15 = 0)
    ∧ (∀ r, r ≠ 15 → t.getV r = s.getV r)
    ∧ t.ev = ⟨s.ev.addrOor || decide (n ≠ 0 ∧ s.i.toNat + n.toNat - 1 > 0xFFF),
        s.ev.unknownOpcode, true⟩
    ∧ t.pc = s.pc + 2 ∧ OnlyChanges [.pc, .v, .fb, .ev] s t

/-- R162, corner case: the same sprite drawn again at the same place leaves every cell as it was before the
first draw. The second draw reports a collision exactly when some cell under a 1 bit of the sprite was 0 at
the start (R162 says "if the sprite has any 1 bit", which holds of a clear framebuffer:
notes/assumptions/15.md). -/
def Obligations.DrawingTwiceRestoresTheFrame : Prop :=
  ∀ x y x' y' n s t, exec (.drw x y n) s = .next t → t.getV x' = s.getV x → t.getV y' = s.getV y →
    ∃ u, exec (.drw x' y' n) t = .next u
      ∧ (∀ row col, u.fb.cell row col = s.fb.cell row col)
      ∧ (u.getV 15 = 1 ↔ ∃ row col, s.fb.cell row col = false
          ∧ spriteOn s (s.getV x) (s.getV y) n.toNat row col = true)

/-! ## Keys and timers -/

/-- R183 (at once when a key is down, and the lowest of several: the spec's decisions D11, D12): with a
key down, FX0A puts the lowest key's number into V[X] and advances; with none it begins the wait and PC
stays (PC: D3). -/
def Obligations.LdVxKTakesAKeyOrWaits : Prop :=
  ∀ x s, ∃ t, exec (.ldVxK x) s = .next t ∧ (∀ r, r ≠ x → t.getV r = s.getV r)
    ∧ OnlyChanges [.pc, .v, .wait] s t ∧
    if s.keys = 0 then t.awaiting = true ∧ t.waitX = x ∧ t.pc = s.pc ∧ t.getV x = s.getV x
    else t.awaiting = false ∧ t.waitX = s.waitX ∧ t.pc = s.pc + 2
      ∧ s.keys.getLsbD (t.getV x).toNat = true
      ∧ ∀ k < (t.getV x).toNat, s.keys.getLsbD k = false

/-- R184, R86: the step while awaiting raises no event and ticks the timers; with no key down it does nothing
else, with a key down it finishes the wait (PC: D3). -/
def Obligations.WaitingStepTicksOrCompletes : Prop :=
  ∀ s, s.awaiting = true → ∃ t, step s = .next t ∧ t.ev = ⟨false, false, false⟩
    ∧ t.dt.toNat = s.dt.toNat - 1 ∧ t.st.toNat = s.st.toNat - 1
    ∧ (∀ r, r ≠ s.waitX → t.getV r = s.getV r)
    ∧ OnlyChanges [.pc, .v, .dt, .st, .wait, .ev, .host] s t ∧ t.waitX = s.waitX ∧
    if s.keys = 0 then t.awaiting = true ∧ t.pc = s.pc ∧ t.getV s.waitX = s.getV s.waitX
    else t.awaiting = false ∧ t.pc = s.pc + 2 ∧ s.keys.getLsbD (t.getV s.waitX).toNat = true
      ∧ ∀ k < (t.getV s.waitX).toNat, s.keys.getLsbD k = false

/-- R184 (derived there): in a state that waits at its own FX0A, the waiting step is the step that executes
that FX0A again. -/
def Obligations.WaitingStepIsTheInstructionAgain : Prop :=
  ∀ s, WaitsAtItsInstr s → step s = step { s with awaiting := false }

/-- R183, R184, R234: while no key is down FX0A leaves PC unchanged across any number of steps: the wait
goes on, only the timers run down. -/
def Obligations.WaitHoldsWhileNoKeyIsDown : Prop :=
  ∀ n s, s.awaiting = true → n ≤ s.inputs.length → (∀ now ∈ s.inputs.take n, now.keys = 0) →
    ∃ t, runSteps n s = .next t ∧ t.awaiting = true ∧ t.waitX = s.waitX
      ∧ t.dt.toNat = s.dt.toNat - n ∧ t.st.toNat = s.st.toNat - n
      ∧ OnlyChanges [.dt, .st, .ev, .host] s t

/-- R185, R186, R187: FX07 copies DT, as it is before the step's tick, into V[X]; FX15 and FX18 copy V[X]
into DT and ST (PC: D3). -/
def Obligations.TimerMoves : Prop :=
  ∀ x s,
    (∃ t, exec (.ldVxDt x) s = .next t ∧ t.getV x = s.dt ∧ (∀ r, r ≠ x → t.getV r = s.getV r)
      ∧ t.pc = s.pc + 2 ∧ OnlyChanges [.pc, .v] s t)
    ∧ (∃ t, exec (.ldDtVx x) s = .next t ∧ t.dt = s.getV x ∧ t.pc = s.pc + 2
      ∧ OnlyChanges [.pc, .dt] s t)
    ∧ (∃ t, exec (.ldStVx x) s = .next t ∧ t.st = s.getV x ∧ t.pc = s.pc + 2
      ∧ OnlyChanges [.pc, .st] s t)

/-- R23, R186: over n steps none of which executes FX15, DT runs down by n, not below 0. -/
def Obligations.DelayTimerRunsDownByOneAStep : Prop :=
  ∀ n s, (∀ k < n, ∀ u x, runSteps k s = .next u → executed u ≠ some (.ldDtVx x)) →
    ∃ t, runSteps n s = .next t ∧ t.dt.toNat = s.dt.toNat - n

/-! ## Memory instructions -/

/-- R200, R40, R42: LD_B stores the three decimal digits of V[X] at I, I + 1, I + 2, each where that exact
sum is in range, stores nothing else, keeps I, and reports an address above 0xFFF (PC: D3). -/
def Obligations.LdBStoresTheDigits : Prop :=
  ∀ x s, ∃ t, exec (.ldB x) s = .next t
    ∧ (addrAtI s 0 ≤ 0xFFF → (t.byteAt (addrAtI s 0)).toNat = (s.getV x).toNat / 100)
    ∧ (addrAtI s 1 ≤ 0xFFF → (t.byteAt (addrAtI s 1)).toNat = (s.getV x).toNat / 10 % 10)
    ∧ (addrAtI s 2 ≤ 0xFFF → (t.byteAt (addrAtI s 2)).toNat = (s.getV x).toNat % 10)
    ∧ (∀ a, a ≠ addrAtI s 0 → a ≠ addrAtI s 1 → a ≠ addrAtI s 2 → t.byteAt a = s.byteAt a)
    ∧ t.ev = { s.ev with addrOor := s.ev.addrOor || decide (s.i.toNat + 2 > 0xFFF) }
    ∧ t.pc = s.pc + 2 ∧ OnlyChanges [.pc, .mem, .ev] s t

/-- R203, R13, R42: ST_REGS stores V[0] to V[X] at I, then at I after each 16-bit increment, each where the
address is in range, stores nothing else, leaves I past the last, and reports an address above 0xFFF
(PC: D3). -/
def Obligations.StRegsStoresTheBlock : Prop :=
  ∀ x s, ∃ t, exec (.stRegs x) s = .next t
    ∧ (∀ r, r ≤ x → blockAddr s r.val ≤ 0xFFF → t.byteAt (blockAddr s r.val) = s.getV r)
    ∧ (∀ a, (∀ r, r ≤ x → a ≠ blockAddr s r.val) → t.byteAt a = s.byteAt a)
    ∧ t.i.toNat = (s.i.toNat + x.val + 1) % 65536
    ∧ (t.ev.addrOor = true ↔ s.ev.addrOor = true ∨ ∃ r, r ≤ x ∧ blockAddr s r.val > 0xFFF)
    ∧ t.ev.unknownOpcode = s.ev.unknownOpcode ∧ t.ev.frameChanged = s.ev.frameChanged
    ∧ t.pc = s.pc + 2 ∧ OnlyChanges [.pc, .mem, .i, .ev] s t

/-- R206, R13, R41: LD_REGS loads V[0] to V[X] from I, then from I after each 16-bit increment, 0x00 where
the address is above 0xFFF, which is reported; the registers above X and memory are kept (PC: D3). -/
def Obligations.LdRegsLoadsTheBlock : Prop :=
  ∀ x s, ∃ t, exec (.ldRegs x) s = .next t
    ∧ (∀ r, r ≤ x →
        t.getV r = if blockAddr s r.val > 0xFFF then 0 else s.mem.read (blockAddr s r.val))
    ∧ (∀ r, x < r → t.getV r = s.getV r)
    ∧ t.i.toNat = (s.i.toNat + x.val + 1) % 65536
    ∧ (t.ev.addrOor = true ↔ s.ev.addrOor = true ∨ ∃ r, r ≤ x ∧ blockAddr s r.val > 0xFFF)
    ∧ t.ev.unknownOpcode = s.ev.unknownOpcode ∧ t.ev.frameChanged = s.ev.frameChanged
    ∧ t.pc = s.pc + 2 ∧ OnlyChanges [.pc, .v, .i, .ev] s t

/-- R203, R206, R50: what ST_REGS stored in range, LD_REGS loads back, whatever the registers hold by then,
once I is put back and memory is as the store left it. -/
def Obligations.StoredBlockLoadsBack : Prop :=
  ∀ x s t u, exec (.stRegs x) s = .next t → s.i.toNat + x.val ≤ 0xFFF → u.i = s.i →
    (∀ a, u.byteAt a = t.byteAt a) →
    ∃ w, exec (.ldRegs x) u = .next w ∧ ∀ r, r ≤ x → w.getV r = s.getV r

/-- R52, R50, R203, R200 (that no cache stands between is the spec's decision D25): a byte that a step
stores at the next PC or the byte after it is the high or the low byte of the word the very next step
fetches, for every byte FX55 stores (V[r] at I after r increments) and every digit FX33 stores (hundreds,
tens, ones at I, I + 1, I + 2). -/
def Obligations.StoresAreFetchedByTheNextStep : Prop :=
  ∀ x s t, step s = .next t →
    let fetches (a b : Nat) : Prop := a ≤ 0xFFF →
      (a = t.pc.toNat → (fetchedWord t).toNat / 256 = b)
      ∧ (a = t.pc.toNat + 1 → (fetchedWord t).toNat % 256 = b)
    (executed s = some (.stRegs x) → ∀ r, r ≤ x → fetches (blockAddr s r.val) (s.getV r).toNat)
    ∧ (executed s = some (.ldB x) →
        ∀ k < 3, fetches (addrAtI s k) ((s.getV x).toNat / 10 ^ (2 - k) % 10))

/-! ## Invariants -/

/-- The three invariants below hold after reset: memory is in its canonical form (the model's own
representation, a DESIGN CHOICE: notes/assumptions/22.md), no slot holds more than 0x1001, and a wait, if
there is one, stands at its FX0A (that reset zeroes the stack and the wait is the spec's decision D2). -/
def Obligations.InvariantsHoldAtReset : Prop :=
  ∀ s, s = State.reset ∨ (∃ u, s = hostReset u) →
    MemoryCanonical s ∧ StackBounded s ∧ WaitsAtItsInstr s

/-- No step brings memory out of its canonical form: addresses strictly rise, none is above 0xFFF, no entry
says what the unlisted address would. Only the second, that nothing is ever stored above 0xFFF, is the
spec's (R40, R42); the order and the removal of entries are the model's own representation, a DESIGN CHOICE:
notes/assumptions/22.md. -/
def Obligations.StepsKeepMemoryCanonical : Prop :=
  ∀ s t, MemoryCanonical s → step s = .next t → MemoryCanonical t

/-- R102 (derived there; spec/90_conflicts.md C12, C13): "the largest value ever pushed is 0x1001": every
step keeps all slots at most 0x1001. -/
def Obligations.StepsKeepTheStackBounded : Prop :=
  ∀ s t, StackBounded s → step s = .next t → StackBounded t

/-- R86, R184 (derived there): every step keeps it true that a wait stands at the FX0A that started it, with
the register that FX0A names. -/
def Obligations.StepsKeepTheWaitAtItsInstruction : Prop :=
  ∀ s t, WaitsAtItsInstr s → step s = .next t → WaitsAtItsInstr t

/-- R101, R263: at a `1NNN` that jumps to itself, of the CORE's state only DT and ST can still change, over
any number of steps, and the self-jump stays (the event outputs and the host's side are not state of the
CORE). -/
def Obligations.SelfJumpNeverEnds : Prop :=
  ∀ n s, atSelfJump s = true → ∃ t, runSteps n s = .next t ∧ atSelfJump t = true
    ∧ OnlyChanges [.dt, .st, .ev, .host] s t
end

