-- ==== Sys2Proof/Laws/Decode.lean ====
section
/-!
SUPPORT. The laws of encoding and decoding: every instruction is well formed, the opcode map's rows
exclude one another, the row a word matches is the row selected, and each field of an encoded word is
the operand put there.
-/

namespace Sys2Proof

/-- The operand types already keep every value within its field. -/
theorem wellFormed_all (i : Instr) : i.wellFormed = true := by
  have hx : ∀ x : Reg, x.val < 16 := fun x => x.isLt
  have hn : ∀ n : Nibble, n.toNat < 16 := fun n => n.isLt
  have hnn : ∀ n : Byte, n.toNat < 256 := fun n => n.isLt
  have hnnn : ∀ n : Imm12, n.toNat < 4096 := fun n => n.isLt
  cases i <;>
    simp [Instr.wellFormed, Instr.fields, Field.ok, Field.valueFits, Field.liesInOperandBits,
      Field.disjoint, Field.ofX, Field.ofY, Field.ofN, Field.ofNN, Field.ofNNN, hx, hn, hnn, hnnn]

/-! ## The opcode map -/

/-- Two rows differ in a bit that both fix. -/
def Row.excludes (r q : Row) : Bool := r.value &&& q.mask != q.value &&& r.mask

/-- A word that one of two such rows selects, the other does not. -/
theorem Row.not_selects_of_excludes {r q : Row} {op : Word} (h : r.excludes q = true)
    (hr : r.selects op = true) : q.selects op = false := by
  by_contra hq
  have hr : op &&& r.mask = r.value := by simpa [Row.selects] using hr
  have hq : op &&& q.mask = q.value := by simpa [Row.selects] using hq
  have : r.value &&& q.mask = q.value &&& r.mask := by
    rw [← hr, ← hq, BitVec.and_assoc, BitVec.and_assoc, BitVec.and_comm r.mask]
  simp [Row.excludes, this] at h

/-- "The rows are disjoint" (R65). -/
theorem opcodeMap_disjoint : opcodeMap.Pairwise (fun r q => r.excludes q = true) := by
  decide

theorem find?_of_pairwise {l : List Row} (hl : l.Pairwise (fun r q => r.excludes q = true)) {r : Row}
    (hr : r ∈ l) {op : Word} (h : r.selects op = true) : l.find? (·.selects op) = some r := by
  induction l with
  | nil => simp at hr
  | cons q l ih =>
    have hp := List.pairwise_cons.mp hl
    rcases List.mem_cons.mp hr with rfl | hr
    · simp [h]
    · have hq : q.selects op = false := by
        by_contra hq
        have := Row.not_selects_of_excludes (hp.1 r hr) (by simpa using hq)
        simp [h] at this
      simp [hq, ih hp.2 hr]

/-- A word decodes to what the row it matches builds. -/
theorem decodeWord_of_row {r : Row} (hr : r ∈ opcodeMap) {op : Word} (h : r.selects op = true) :
    decodeWord op = some (r.build op) := by
  simp [decodeWord, find?_of_pairwise opcodeMap_disjoint hr h]

/-- A decoded word matches the row that built the instruction. -/
theorem row_of_decodeWord {op : Word} {i : Instr} (h : decodeWord op = some i) :
    ∃ r ∈ opcodeMap, r.selects op = true ∧ r.build op = i := by
  unfold decodeWord at h
  cases hf : opcodeMap.find? (·.selects op) with
  | none => simp [hf] at h
  | some r =>
    exact ⟨r, List.mem_of_find?_eq_some hf, List.find?_some (p := fun q : Row => q.selects op) hf, by simpa [hf] using h⟩

/-! ## Bytes -/

@[simp] theorem wordOfBytes_high_low (w : Word) : wordOfBytes (highByte w) (lowByte w) = w := by
  apply BitVec.eq_of_getLsbD_eq
  intro i hi
  simp only [wordOfBytes, highByte, lowByte, BitVec.getLsbD_append, BitVec.getLsbD_extractLsb']
  by_cases h : i < 8
  · simp [h]
  · have h1 : i - 8 < 8 := by omega
    have h2 : 8 + (i - 8) = i := by omega
    simp [h, h1, h2]

/-! ## Fields of an encoded word -/

theorem extract_or (a b : Word) (k n : Nat) :
    (a ||| b).extractLsb' k n = a.extractLsb' k n ||| b.extractLsb' k n := by
  apply BitVec.eq_of_getLsbD_eq
  intro j hj
  simp [hj]

theorem or_and (a b m : Word) : (a ||| b) &&& m = (a &&& m) ||| (b &&& m) := by
  apply BitVec.eq_of_getLsbD_eq
  intro j hj
  simp [Bool.and_or_distrib_right]

/-- X lands in bits 11:8 and nowhere else. -/
theorem placeX_fields (x : Reg) :
    placeX x &&& 0xF000 = 0 ∧ placeX x &&& 0xF00F = 0 ∧ placeX x &&& 0xF0FF = 0
    ∧ (placeX x).extractLsb' 8 4 = BitVec.ofFin x ∧ (placeX x).extractLsb' 4 4 = 0
    ∧ (placeX x).extractLsb' 0 4 = 0 ∧ (placeX x).extractLsb' 0 8 = 0 := by
  revert x; decide

/-- Y lands in bits 7:4 and nowhere else. -/
theorem placeY_fields (y : Reg) :
    placeY y &&& 0xF000 = 0 ∧ placeY y &&& 0xF00F = 0
    ∧ (placeY y).extractLsb' 8 4 = 0 ∧ (placeY y).extractLsb' 4 4 = BitVec.ofFin y
    ∧ (placeY y).extractLsb' 0 4 = 0 := by
  revert y; decide

/-- N lands in bits 3:0 and nowhere else. -/
theorem placeN_fields (n : Nibble) :
    n.zeroExtend 16 &&& 0xF000 = 0 ∧ (n.zeroExtend 16).extractLsb' 8 4 = 0
    ∧ (n.zeroExtend 16).extractLsb' 4 4 = 0 ∧ (n.zeroExtend 16).extractLsb' 0 4 = n := by
  revert n; decide

/-- An immediate of up to 12 bits lands in its own bits and nowhere else. -/
theorem placeImm_fields {w : Nat} (hw : w ≤ 12) (n : BitVec w) :
    n.zeroExtend 16 &&& 0xF000 = 0 ∧ (n.zeroExtend 16).extractLsb' 0 w = n
    ∧ (w ≤ 8 → (n.zeroExtend 16).extractLsb' 8 4 = 0) := by
  refine ⟨?_, ?_, fun h => ?_⟩
  · apply BitVec.eq_of_getLsbD_eq
    intro j hj
    have low : ∀ k < 12, (0xF000#16).getLsbD k = false := by decide
    by_cases h : j < 12
    · simp [low j h]
    · have : n.getLsbD j = false := BitVec.getLsbD_of_ge n j (by omega)
      simp [this]
  · apply BitVec.eq_of_getLsbD_eq
    intro j hj
    have : j < 16 := by omega
    simp [hj, this]
  · apply BitVec.eq_of_getLsbD_eq
    intro j hj
    have : n.getLsbD (8 + j) = false := BitVec.getLsbD_of_ge n _ (by omega)
    simp [hj, this]

end Sys2Proof
end

