-- ==== Sys2Proof/Laws/Memory.lean ====
section
/-!
SUPPORT. The laws of memory contents: a read after a write, and that every operation keeps the canonical
form (Machine/Memory.lean). The read laws hold of every list, canonical or not.
-/

namespace Sys2Proof.Machine

theorem Memory.read_erase_self (m : Memory) (a : Nat) : (m.erase a).read a = Memory.resetByte a := by
  induction m with
  | nil => rfl
  | cons c m ih =>
    simp only [Memory.erase, List.filter_cons] at ih ⊢
    split
    · rename_i h
      have : a ≠ c.1 := fun e => by simp [e] at h
      simpa [Memory.read, this] using ih
    · exact ih

theorem Memory.read_erase_of_ne (m : Memory) {a b : Nat} (h : b ≠ a) :
    (m.erase a).read b = m.read b := by
  induction m with
  | nil => rfl
  | cons c m ih =>
    simp only [Memory.erase, List.filter_cons] at ih ⊢
    split
    · simp only [Memory.read, ih]
    · rename_i hc
      have hc : c.1 = a := by simpa using hc
      simp [Memory.read, hc, h, ih]

theorem Memory.read_insert_of_ne (m : Memory) {a b : Nat} (x : Byte) (h : b ≠ a) :
    (m.insert a x).read b = m.read b := by
  induction m with
  | nil => simp [Memory.insert, Memory.read, h]
  | cons c m ih =>
    simp only [Memory.insert]
    split
    · simp [Memory.read, h]
    · simp only [Memory.read, ih]

theorem Memory.read_insert_self (m : Memory) {a : Nat} (x : Byte) (h : ∀ c ∈ m, c.1 ≠ a) :
    (m.insert a x).read a = x := by
  induction m with
  | nil => simp [Memory.insert, Memory.read]
  | cons c m ih =>
    have hc : a ≠ c.1 := fun e => h c (by simp) e.symm
    simp only [Memory.insert]
    split
    · simp [Memory.read]
    · simp [Memory.read, hc, ih fun d hd => h d (by simp [hd])]

theorem Memory.mem_erase {m : Memory} {a : Nat} {c : Host.Cell} :
    c ∈ m.erase a ↔ c ∈ m ∧ c.1 ≠ a := by
  simp [Memory.erase, List.mem_filter]

theorem Memory.mem_insert {m : Memory} {a : Nat} {x : Byte} {c : Host.Cell} :
    c ∈ m.insert a x ↔ c = (a, x) ∨ c ∈ m := by
  induction m with
  | nil => simp [Memory.insert]
  | cons d m ih =>
    simp only [Memory.insert]
    split
    · simp
    · simp only [List.mem_cons, ih]; tauto

/-- A read after a write: the byte written there, the old byte anywhere else. -/
@[simp] theorem Memory.read_write (m : Memory) (a b : Nat) (x : Byte) :
    (m.write a x).read b = if b = a then x else m.read b := by
  unfold Memory.write
  by_cases h : b = a
  · subst h
    split
    · rename_i hx; simp [hx, Memory.read_erase_self]
    · simp [Memory.read_insert_self _ _ fun c hc => (Memory.mem_erase.mp hc).2]
  · split
    · rw [Memory.read_erase_of_ne _ h]
    · rw [Memory.read_insert_of_ne _ _ h, Memory.read_erase_of_ne _ h]

theorem Memory.pairwise_insert {m : Memory} {a : Nat} (x : Byte)
    (hm : m.Pairwise (fun c d => c.1 < d.1)) (ha : ∀ c ∈ m, c.1 ≠ a) :
    (m.insert a x).Pairwise (fun c d => c.1 < d.1) := by
  induction m with
  | nil => simp [Memory.insert]
  | cons c m ih =>
    have hcm := List.pairwise_cons.mp hm
    have hca : c.1 ≠ a := ha c (by simp)
    simp only [Memory.insert]
    split
    · rename_i h
      refine List.pairwise_cons.mpr ⟨fun d hd => ?_, hm⟩
      rcases List.mem_cons.mp hd with rfl | hd
      · exact h
      · exact Nat.lt_trans h (hcm.1 d hd)
    · refine List.pairwise_cons.mpr ⟨fun d hd => ?_, ih hcm.2 fun d hd => ha d (by simp [hd])⟩
      rcases Memory.mem_insert.mp hd with rfl | hd
      · simp only; omega
      · exact hcm.1 d hd

theorem Memory.wf_nil : Memory.wf [] := ⟨List.Pairwise.nil, by simp⟩

theorem Memory.wf_erase {m : Memory} (a : Nat) (h : m.wf) : (m.erase a).wf :=
  ⟨h.1.filter _, fun c hc => h.2 c (Memory.mem_erase.mp hc).1⟩

/-- A write to an address that exists keeps the canonical form. -/
theorem Memory.wf_write {m : Memory} {a : Nat} (x : Byte) (h : m.wf) (ha : a < Config.memSize) :
    (m.write a x).wf := by
  unfold Memory.write
  split
  · exact Memory.wf_erase a h
  · rename_i hx
    refine ⟨Memory.pairwise_insert x (Memory.wf_erase a h).1 fun c hc => (Memory.mem_erase.mp hc).2,
      fun c hc => ?_⟩
    rcases Memory.mem_insert.mp hc with rfl | hc
    · exact ⟨ha, hx⟩
    · exact (Memory.wf_erase a h).2 c hc

/-- Canonical contents that read the same everywhere are the same list. -/
theorem Memory.eq_of_read_eq {m n : Memory} (hm : m.wf) (hn : n.wf)
    (h : ∀ a, m.read a = n.read a) : m = n := by
  have key : ∀ {m n : Memory}, m.wf → (∀ a, m.read a = n.read a) → ∀ c ∈ m, c ∈ n := by
    intro m n hm h c hc
    have hread : ∀ {m : Memory} {c : Host.Cell}, m.wf → c ∈ m → m.read c.1 = c.2 := by
      intro m
      induction m with
      | nil => simp
      | cons d m ih =>
        intro c hw hc
        have hp := List.pairwise_cons.mp hw.1
        rcases List.mem_cons.mp hc with rfl | hc
        · simp [Memory.read]
        · have : c.1 ≠ d.1 := by have := hp.1 c hc; omega
          simpa [Memory.read, this] using ih ⟨hp.2, fun e he => hw.2 e (by simp [he])⟩ hc
    have hin : ∀ {n : Memory} {a : Nat}, n.read a ≠ Memory.resetByte a → (a, n.read a) ∈ n := by
      intro n a
      induction n with
      | nil => simp [Memory.read]
      | cons d n ih =>
        intro hne
        by_cases e : a = d.1
        · subst e; simp [Memory.read]
        · simp only [Memory.read, e, if_false] at hne ⊢
          exact List.mem_cons_of_mem _ (ih hne)
    have e := hread hm hc
    have := hin (n := n) (a := c.1) (by rw [← h, e]; exact (hm.2 c hc).2)
    rwa [← h, e] at this
  have sorted : ∀ {m : Memory}, m.wf → m.Pairwise (fun c d => c.1 < d.1) := fun h => h.1
  have nodup : ∀ {m : Memory}, m.wf → m.Nodup := fun h =>
    h.1.imp fun {_ _} hlt => by rintro rfl; exact Nat.lt_irrefl _ hlt
  have perm : m.Perm n := (List.perm_ext_iff_of_nodup (nodup hm) (nodup hn)).mpr fun c =>
    ⟨key hm h c, key hn (fun a => (h a).symm) c⟩
  exact perm.eq_of_pairwise (le := fun c d => c.1 < d.1) (fun c d _ _ h₁ h₂ => absurd h₁ (by omega)) (sorted hm) (sorted hn)

end Sys2Proof.Machine
end

