-- ==== Sys2Proof/Laws/State.lean ====
section
/-!
SUPPORT. One lemma per field per state update: what the field is afterwards. The conditional updates
have here the fields they never touch; what they do to the others is Laws/Ops.lean.
-/

namespace Sys2Proof.Machine

/-! ### `setV` -/

@[simp] theorem setV_v (x : Reg) (b : Byte) (s : State) : (s.setV x b).v = s.v.set x b := rfl
@[simp] theorem setV_i (x : Reg) (b : Byte) (s : State) : (s.setV x b).i = s.i := rfl
@[simp] theorem setV_pc (x : Reg) (b : Byte) (s : State) : (s.setV x b).pc = s.pc := rfl
@[simp] theorem setV_stack (x : Reg) (b : Byte) (s : State) : (s.setV x b).stack = s.stack := rfl
@[simp] theorem setV_sp (x : Reg) (b : Byte) (s : State) : (s.setV x b).sp = s.sp := rfl
@[simp] theorem setV_dt (x : Reg) (b : Byte) (s : State) : (s.setV x b).dt = s.dt := rfl
@[simp] theorem setV_st (x : Reg) (b : Byte) (s : State) : (s.setV x b).st = s.st := rfl
@[simp] theorem setV_mem (x : Reg) (b : Byte) (s : State) : (s.setV x b).mem = s.mem := rfl
@[simp] theorem setV_fb (x : Reg) (b : Byte) (s : State) : (s.setV x b).fb = s.fb := rfl
@[simp] theorem setV_awaiting (x : Reg) (b : Byte) (s : State) : (s.setV x b).awaiting = s.awaiting := rfl
@[simp] theorem setV_waitX (x : Reg) (b : Byte) (s : State) : (s.setV x b).waitX = s.waitX := rfl
@[simp] theorem setV_ev (x : Reg) (b : Byte) (s : State) : (s.setV x b).ev = s.ev := rfl
@[simp] theorem setV_inputs (x : Reg) (b : Byte) (s : State) : (s.setV x b).inputs = s.inputs := rfl
@[simp] theorem setV_samples (x : Reg) (b : Byte) (s : State) : (s.setV x b).samples = s.samples := rfl
@[simp] theorem setV_stepped (x : Reg) (b : Byte) (s : State) : (s.setV x b).stepped = s.stepped := rfl
@[simp] theorem setV_loaded (x : Reg) (b : Byte) (s : State) : (s.setV x b).loaded = s.loaded := rfl

/-! ### `clearEvents` -/

@[simp] theorem clearEvents_v (s : State) : (clearEvents s).v = s.v := rfl
@[simp] theorem clearEvents_i (s : State) : (clearEvents s).i = s.i := rfl
@[simp] theorem clearEvents_pc (s : State) : (clearEvents s).pc = s.pc := rfl
@[simp] theorem clearEvents_stack (s : State) : (clearEvents s).stack = s.stack := rfl
@[simp] theorem clearEvents_sp (s : State) : (clearEvents s).sp = s.sp := rfl
@[simp] theorem clearEvents_dt (s : State) : (clearEvents s).dt = s.dt := rfl
@[simp] theorem clearEvents_st (s : State) : (clearEvents s).st = s.st := rfl
@[simp] theorem clearEvents_mem (s : State) : (clearEvents s).mem = s.mem := rfl
@[simp] theorem clearEvents_fb (s : State) : (clearEvents s).fb = s.fb := rfl
@[simp] theorem clearEvents_awaiting (s : State) : (clearEvents s).awaiting = s.awaiting := rfl
@[simp] theorem clearEvents_waitX (s : State) : (clearEvents s).waitX = s.waitX := rfl
@[simp] theorem clearEvents_ev (s : State) : (clearEvents s).ev = Events.clear := rfl
@[simp] theorem clearEvents_inputs (s : State) : (clearEvents s).inputs = s.inputs := rfl
@[simp] theorem clearEvents_samples (s : State) : (clearEvents s).samples = s.samples := rfl
@[simp] theorem clearEvents_stepped (s : State) : (clearEvents s).stepped = s.stepped := rfl
@[simp] theorem clearEvents_loaded (s : State) : (clearEvents s).loaded = s.loaded := rfl

/-! ### `raiseAddrOor` -/

@[simp] theorem raiseAddrOor_v (s : State) : (raiseAddrOor s).v = s.v := rfl
@[simp] theorem raiseAddrOor_i (s : State) : (raiseAddrOor s).i = s.i := rfl
@[simp] theorem raiseAddrOor_pc (s : State) : (raiseAddrOor s).pc = s.pc := rfl
@[simp] theorem raiseAddrOor_stack (s : State) : (raiseAddrOor s).stack = s.stack := rfl
@[simp] theorem raiseAddrOor_sp (s : State) : (raiseAddrOor s).sp = s.sp := rfl
@[simp] theorem raiseAddrOor_dt (s : State) : (raiseAddrOor s).dt = s.dt := rfl
@[simp] theorem raiseAddrOor_st (s : State) : (raiseAddrOor s).st = s.st := rfl
@[simp] theorem raiseAddrOor_mem (s : State) : (raiseAddrOor s).mem = s.mem := rfl
@[simp] theorem raiseAddrOor_fb (s : State) : (raiseAddrOor s).fb = s.fb := rfl
@[simp] theorem raiseAddrOor_awaiting (s : State) : (raiseAddrOor s).awaiting = s.awaiting := rfl
@[simp] theorem raiseAddrOor_waitX (s : State) : (raiseAddrOor s).waitX = s.waitX := rfl
@[simp] theorem raiseAddrOor_ev (s : State) : (raiseAddrOor s).ev = { s.ev with addrOor := true } := rfl
@[simp] theorem raiseAddrOor_inputs (s : State) : (raiseAddrOor s).inputs = s.inputs := rfl
@[simp] theorem raiseAddrOor_samples (s : State) : (raiseAddrOor s).samples = s.samples := rfl
@[simp] theorem raiseAddrOor_stepped (s : State) : (raiseAddrOor s).stepped = s.stepped := rfl
@[simp] theorem raiseAddrOor_loaded (s : State) : (raiseAddrOor s).loaded = s.loaded := rfl

/-! ### `raiseUnknownOpcode` -/

@[simp] theorem raiseUnknownOpcode_v (s : State) : (raiseUnknownOpcode s).v = s.v := rfl
@[simp] theorem raiseUnknownOpcode_i (s : State) : (raiseUnknownOpcode s).i = s.i := rfl
@[simp] theorem raiseUnknownOpcode_pc (s : State) : (raiseUnknownOpcode s).pc = s.pc := rfl
@[simp] theorem raiseUnknownOpcode_stack (s : State) : (raiseUnknownOpcode s).stack = s.stack := rfl
@[simp] theorem raiseUnknownOpcode_sp (s : State) : (raiseUnknownOpcode s).sp = s.sp := rfl
@[simp] theorem raiseUnknownOpcode_dt (s : State) : (raiseUnknownOpcode s).dt = s.dt := rfl
@[simp] theorem raiseUnknownOpcode_st (s : State) : (raiseUnknownOpcode s).st = s.st := rfl
@[simp] theorem raiseUnknownOpcode_mem (s : State) : (raiseUnknownOpcode s).mem = s.mem := rfl
@[simp] theorem raiseUnknownOpcode_fb (s : State) : (raiseUnknownOpcode s).fb = s.fb := rfl
@[simp] theorem raiseUnknownOpcode_awaiting (s : State) : (raiseUnknownOpcode s).awaiting = s.awaiting := rfl
@[simp] theorem raiseUnknownOpcode_waitX (s : State) : (raiseUnknownOpcode s).waitX = s.waitX := rfl
@[simp] theorem raiseUnknownOpcode_ev (s : State) : (raiseUnknownOpcode s).ev = { s.ev with unknownOpcode := true } := rfl
@[simp] theorem raiseUnknownOpcode_inputs (s : State) : (raiseUnknownOpcode s).inputs = s.inputs := rfl
@[simp] theorem raiseUnknownOpcode_samples (s : State) : (raiseUnknownOpcode s).samples = s.samples := rfl
@[simp] theorem raiseUnknownOpcode_stepped (s : State) : (raiseUnknownOpcode s).stepped = s.stepped := rfl
@[simp] theorem raiseUnknownOpcode_loaded (s : State) : (raiseUnknownOpcode s).loaded = s.loaded := rfl

/-! ### `raiseFrameChanged` -/

@[simp] theorem raiseFrameChanged_v (s : State) : (raiseFrameChanged s).v = s.v := rfl
@[simp] theorem raiseFrameChanged_i (s : State) : (raiseFrameChanged s).i = s.i := rfl
@[simp] theorem raiseFrameChanged_pc (s : State) : (raiseFrameChanged s).pc = s.pc := rfl
@[simp] theorem raiseFrameChanged_stack (s : State) : (raiseFrameChanged s).stack = s.stack := rfl
@[simp] theorem raiseFrameChanged_sp (s : State) : (raiseFrameChanged s).sp = s.sp := rfl
@[simp] theorem raiseFrameChanged_dt (s : State) : (raiseFrameChanged s).dt = s.dt := rfl
@[simp] theorem raiseFrameChanged_st (s : State) : (raiseFrameChanged s).st = s.st := rfl
@[simp] theorem raiseFrameChanged_mem (s : State) : (raiseFrameChanged s).mem = s.mem := rfl
@[simp] theorem raiseFrameChanged_fb (s : State) : (raiseFrameChanged s).fb = s.fb := rfl
@[simp] theorem raiseFrameChanged_awaiting (s : State) : (raiseFrameChanged s).awaiting = s.awaiting := rfl
@[simp] theorem raiseFrameChanged_waitX (s : State) : (raiseFrameChanged s).waitX = s.waitX := rfl
@[simp] theorem raiseFrameChanged_ev (s : State) : (raiseFrameChanged s).ev = { s.ev with frameChanged := true } := rfl
@[simp] theorem raiseFrameChanged_inputs (s : State) : (raiseFrameChanged s).inputs = s.inputs := rfl
@[simp] theorem raiseFrameChanged_samples (s : State) : (raiseFrameChanged s).samples = s.samples := rfl
@[simp] theorem raiseFrameChanged_stepped (s : State) : (raiseFrameChanged s).stepped = s.stepped := rfl
@[simp] theorem raiseFrameChanged_loaded (s : State) : (raiseFrameChanged s).loaded = s.loaded := rfl

/-! ### `push` -/

@[simp] theorem push_v (a : Word) (s : State) : (push a s).v = s.v := rfl
@[simp] theorem push_i (a : Word) (s : State) : (push a s).i = s.i := rfl
@[simp] theorem push_pc (a : Word) (s : State) : (push a s).pc = s.pc := rfl
@[simp] theorem push_stack (a : Word) (s : State) : (push a s).stack = s.stack.set s.sp.toFin a := rfl
@[simp] theorem push_sp (a : Word) (s : State) : (push a s).sp = s.sp + 1 := rfl
@[simp] theorem push_dt (a : Word) (s : State) : (push a s).dt = s.dt := rfl
@[simp] theorem push_st (a : Word) (s : State) : (push a s).st = s.st := rfl
@[simp] theorem push_mem (a : Word) (s : State) : (push a s).mem = s.mem := rfl
@[simp] theorem push_fb (a : Word) (s : State) : (push a s).fb = s.fb := rfl
@[simp] theorem push_awaiting (a : Word) (s : State) : (push a s).awaiting = s.awaiting := rfl
@[simp] theorem push_waitX (a : Word) (s : State) : (push a s).waitX = s.waitX := rfl
@[simp] theorem push_ev (a : Word) (s : State) : (push a s).ev = s.ev := rfl
@[simp] theorem push_inputs (a : Word) (s : State) : (push a s).inputs = s.inputs := rfl
@[simp] theorem push_samples (a : Word) (s : State) : (push a s).samples = s.samples := rfl
@[simp] theorem push_stepped (a : Word) (s : State) : (push a s).stepped = s.stepped := rfl
@[simp] theorem push_loaded (a : Word) (s : State) : (push a s).loaded = s.loaded := rfl

/-! ### `pop` -/

@[simp] theorem pop_v (s : State) : ((pop s).2).v = s.v := rfl
@[simp] theorem pop_i (s : State) : ((pop s).2).i = s.i := rfl
@[simp] theorem pop_pc (s : State) : ((pop s).2).pc = s.pc := rfl
@[simp] theorem pop_stack (s : State) : ((pop s).2).stack = s.stack := rfl
@[simp] theorem pop_sp (s : State) : ((pop s).2).sp = popPointer s.sp := rfl
@[simp] theorem pop_dt (s : State) : ((pop s).2).dt = s.dt := rfl
@[simp] theorem pop_st (s : State) : ((pop s).2).st = s.st := rfl
@[simp] theorem pop_mem (s : State) : ((pop s).2).mem = s.mem := rfl
@[simp] theorem pop_fb (s : State) : ((pop s).2).fb = s.fb := rfl
@[simp] theorem pop_awaiting (s : State) : ((pop s).2).awaiting = s.awaiting := rfl
@[simp] theorem pop_waitX (s : State) : ((pop s).2).waitX = s.waitX := rfl
@[simp] theorem pop_ev (s : State) : ((pop s).2).ev = s.ev := rfl
@[simp] theorem pop_inputs (s : State) : ((pop s).2).inputs = s.inputs := rfl
@[simp] theorem pop_samples (s : State) : ((pop s).2).samples = s.samples := rfl
@[simp] theorem pop_stepped (s : State) : ((pop s).2).stepped = s.stepped := rfl
@[simp] theorem pop_loaded (s : State) : ((pop s).2).loaded = s.loaded := rfl

/-! ### `nextPC` -/

@[simp] theorem nextPC_v (s : State) : (nextPC s).v = s.v := rfl
@[simp] theorem nextPC_i (s : State) : (nextPC s).i = s.i := rfl
@[simp] theorem nextPC_pc (s : State) : (nextPC s).pc = s.pc + 2 := rfl
@[simp] theorem nextPC_stack (s : State) : (nextPC s).stack = s.stack := rfl
@[simp] theorem nextPC_sp (s : State) : (nextPC s).sp = s.sp := rfl
@[simp] theorem nextPC_dt (s : State) : (nextPC s).dt = s.dt := rfl
@[simp] theorem nextPC_st (s : State) : (nextPC s).st = s.st := rfl
@[simp] theorem nextPC_mem (s : State) : (nextPC s).mem = s.mem := rfl
@[simp] theorem nextPC_fb (s : State) : (nextPC s).fb = s.fb := rfl
@[simp] theorem nextPC_awaiting (s : State) : (nextPC s).awaiting = s.awaiting := rfl
@[simp] theorem nextPC_waitX (s : State) : (nextPC s).waitX = s.waitX := rfl
@[simp] theorem nextPC_ev (s : State) : (nextPC s).ev = s.ev := rfl
@[simp] theorem nextPC_inputs (s : State) : (nextPC s).inputs = s.inputs := rfl
@[simp] theorem nextPC_samples (s : State) : (nextPC s).samples = s.samples := rfl
@[simp] theorem nextPC_stepped (s : State) : (nextPC s).stepped = s.stepped := rfl
@[simp] theorem nextPC_loaded (s : State) : (nextPC s).loaded = s.loaded := rfl

/-! ### `skip` -/

@[simp] theorem skip_v (s : State) : (skip s).v = s.v := rfl
@[simp] theorem skip_i (s : State) : (skip s).i = s.i := rfl
@[simp] theorem skip_pc (s : State) : (skip s).pc = s.pc + 2 := rfl
@[simp] theorem skip_stack (s : State) : (skip s).stack = s.stack := rfl
@[simp] theorem skip_sp (s : State) : (skip s).sp = s.sp := rfl
@[simp] theorem skip_dt (s : State) : (skip s).dt = s.dt := rfl
@[simp] theorem skip_st (s : State) : (skip s).st = s.st := rfl
@[simp] theorem skip_mem (s : State) : (skip s).mem = s.mem := rfl
@[simp] theorem skip_fb (s : State) : (skip s).fb = s.fb := rfl
@[simp] theorem skip_awaiting (s : State) : (skip s).awaiting = s.awaiting := rfl
@[simp] theorem skip_waitX (s : State) : (skip s).waitX = s.waitX := rfl
@[simp] theorem skip_ev (s : State) : (skip s).ev = s.ev := rfl
@[simp] theorem skip_inputs (s : State) : (skip s).inputs = s.inputs := rfl
@[simp] theorem skip_samples (s : State) : (skip s).samples = s.samples := rfl
@[simp] theorem skip_stepped (s : State) : (skip s).stepped = s.stepped := rfl
@[simp] theorem skip_loaded (s : State) : (skip s).loaded = s.loaded := rfl

/-! ### `jumpTo` -/

@[simp] theorem jumpTo_v (target : Word) (s : State) : (jumpTo target s).v = s.v := rfl
@[simp] theorem jumpTo_i (target : Word) (s : State) : (jumpTo target s).i = s.i := rfl
@[simp] theorem jumpTo_pc (target : Word) (s : State) : (jumpTo target s).pc = target := rfl
@[simp] theorem jumpTo_stack (target : Word) (s : State) : (jumpTo target s).stack = s.stack := rfl
@[simp] theorem jumpTo_sp (target : Word) (s : State) : (jumpTo target s).sp = s.sp := rfl
@[simp] theorem jumpTo_dt (target : Word) (s : State) : (jumpTo target s).dt = s.dt := rfl
@[simp] theorem jumpTo_st (target : Word) (s : State) : (jumpTo target s).st = s.st := rfl
@[simp] theorem jumpTo_mem (target : Word) (s : State) : (jumpTo target s).mem = s.mem := rfl
@[simp] theorem jumpTo_fb (target : Word) (s : State) : (jumpTo target s).fb = s.fb := rfl
@[simp] theorem jumpTo_awaiting (target : Word) (s : State) : (jumpTo target s).awaiting = s.awaiting := rfl
@[simp] theorem jumpTo_waitX (target : Word) (s : State) : (jumpTo target s).waitX = s.waitX := rfl
@[simp] theorem jumpTo_ev (target : Word) (s : State) : (jumpTo target s).ev = s.ev := rfl
@[simp] theorem jumpTo_inputs (target : Word) (s : State) : (jumpTo target s).inputs = s.inputs := rfl
@[simp] theorem jumpTo_samples (target : Word) (s : State) : (jumpTo target s).samples = s.samples := rfl
@[simp] theorem jumpTo_stepped (target : Word) (s : State) : (jumpTo target s).stepped = s.stepped := rfl
@[simp] theorem jumpTo_loaded (target : Word) (s : State) : (jumpTo target s).loaded = s.loaded := rfl

/-! ### `tickTimers` -/

@[simp] theorem tickTimers_v (s : State) : (tickTimers s).v = s.v := rfl
@[simp] theorem tickTimers_i (s : State) : (tickTimers s).i = s.i := rfl
@[simp] theorem tickTimers_pc (s : State) : (tickTimers s).pc = s.pc := rfl
@[simp] theorem tickTimers_stack (s : State) : (tickTimers s).stack = s.stack := rfl
@[simp] theorem tickTimers_sp (s : State) : (tickTimers s).sp = s.sp := rfl
@[simp] theorem tickTimers_dt (s : State) : (tickTimers s).dt = tickDown s.dt := rfl
@[simp] theorem tickTimers_st (s : State) : (tickTimers s).st = tickDown s.st := rfl
@[simp] theorem tickTimers_mem (s : State) : (tickTimers s).mem = s.mem := rfl
@[simp] theorem tickTimers_fb (s : State) : (tickTimers s).fb = s.fb := rfl
@[simp] theorem tickTimers_awaiting (s : State) : (tickTimers s).awaiting = s.awaiting := rfl
@[simp] theorem tickTimers_waitX (s : State) : (tickTimers s).waitX = s.waitX := rfl
@[simp] theorem tickTimers_ev (s : State) : (tickTimers s).ev = s.ev := rfl
@[simp] theorem tickTimers_inputs (s : State) : (tickTimers s).inputs = s.inputs := rfl
@[simp] theorem tickTimers_samples (s : State) : (tickTimers s).samples = s.samples := rfl
@[simp] theorem tickTimers_stepped (s : State) : (tickTimers s).stepped = s.stepped := rfl
@[simp] theorem tickTimers_loaded (s : State) : (tickTimers s).loaded = s.loaded := rfl

/-! ### `beginStep` -/

@[simp] theorem beginStep_v (s : State) : (beginStep s).v = s.v := rfl
@[simp] theorem beginStep_i (s : State) : (beginStep s).i = s.i := rfl
@[simp] theorem beginStep_pc (s : State) : (beginStep s).pc = s.pc := rfl
@[simp] theorem beginStep_stack (s : State) : (beginStep s).stack = s.stack := rfl
@[simp] theorem beginStep_sp (s : State) : (beginStep s).sp = s.sp := rfl
@[simp] theorem beginStep_dt (s : State) : (beginStep s).dt = s.dt := rfl
@[simp] theorem beginStep_st (s : State) : (beginStep s).st = s.st := rfl
@[simp] theorem beginStep_mem (s : State) : (beginStep s).mem = s.mem := rfl
@[simp] theorem beginStep_fb (s : State) : (beginStep s).fb = s.fb := rfl
@[simp] theorem beginStep_awaiting (s : State) : (beginStep s).awaiting = s.awaiting := rfl
@[simp] theorem beginStep_waitX (s : State) : (beginStep s).waitX = s.waitX := rfl
@[simp] theorem beginStep_ev (s : State) : (beginStep s).ev = Events.clear := rfl
@[simp] theorem beginStep_inputs (s : State) : (beginStep s).inputs = s.inputs := rfl
@[simp] theorem beginStep_samples (s : State) : (beginStep s).samples = s.samples := rfl
@[simp] theorem beginStep_stepped (s : State) : (beginStep s).stepped = s.stepped := rfl
@[simp] theorem beginStep_loaded (s : State) : (beginStep s).loaded = s.loaded := rfl

/-! ### `endStep` -/

@[simp] theorem endStep_v (s : State) : (endStep s).v = s.v := rfl
@[simp] theorem endStep_i (s : State) : (endStep s).i = s.i := rfl
@[simp] theorem endStep_pc (s : State) : (endStep s).pc = s.pc := rfl
@[simp] theorem endStep_stack (s : State) : (endStep s).stack = s.stack := rfl
@[simp] theorem endStep_sp (s : State) : (endStep s).sp = s.sp := rfl
@[simp] theorem endStep_dt (s : State) : (endStep s).dt = tickDown s.dt := rfl
@[simp] theorem endStep_st (s : State) : (endStep s).st = tickDown s.st := rfl
@[simp] theorem endStep_mem (s : State) : (endStep s).mem = s.mem := rfl
@[simp] theorem endStep_fb (s : State) : (endStep s).fb = s.fb := rfl
@[simp] theorem endStep_awaiting (s : State) : (endStep s).awaiting = s.awaiting := rfl
@[simp] theorem endStep_waitX (s : State) : (endStep s).waitX = s.waitX := rfl
@[simp] theorem endStep_ev (s : State) : (endStep s).ev = s.ev := rfl
@[simp] theorem endStep_inputs (s : State) : (endStep s).inputs = s.inputs.tail := rfl
@[simp] theorem endStep_samples (s : State) : (endStep s).samples = s.samples + 1 := rfl
@[simp] theorem endStep_stepped (s : State) : (endStep s).stepped = true := rfl
@[simp] theorem endStep_loaded (s : State) : (endStep s).loaded = s.loaded := rfl

/-! ### `setI` -/

@[simp] theorem setI_v (w : Word) (s : State) : (setI w s).v = s.v := rfl
@[simp] theorem setI_i (w : Word) (s : State) : (setI w s).i = w := rfl
@[simp] theorem setI_pc (w : Word) (s : State) : (setI w s).pc = s.pc := rfl
@[simp] theorem setI_stack (w : Word) (s : State) : (setI w s).stack = s.stack := rfl
@[simp] theorem setI_sp (w : Word) (s : State) : (setI w s).sp = s.sp := rfl
@[simp] theorem setI_dt (w : Word) (s : State) : (setI w s).dt = s.dt := rfl
@[simp] theorem setI_st (w : Word) (s : State) : (setI w s).st = s.st := rfl
@[simp] theorem setI_mem (w : Word) (s : State) : (setI w s).mem = s.mem := rfl
@[simp] theorem setI_fb (w : Word) (s : State) : (setI w s).fb = s.fb := rfl
@[simp] theorem setI_awaiting (w : Word) (s : State) : (setI w s).awaiting = s.awaiting := rfl
@[simp] theorem setI_waitX (w : Word) (s : State) : (setI w s).waitX = s.waitX := rfl
@[simp] theorem setI_ev (w : Word) (s : State) : (setI w s).ev = s.ev := rfl
@[simp] theorem setI_inputs (w : Word) (s : State) : (setI w s).inputs = s.inputs := rfl
@[simp] theorem setI_samples (w : Word) (s : State) : (setI w s).samples = s.samples := rfl
@[simp] theorem setI_stepped (w : Word) (s : State) : (setI w s).stepped = s.stepped := rfl
@[simp] theorem setI_loaded (w : Word) (s : State) : (setI w s).loaded = s.loaded := rfl

/-! ### `incI` -/

@[simp] theorem incI_v (s : State) : (incI s).v = s.v := rfl
@[simp] theorem incI_i (s : State) : (incI s).i = s.i + 1 := rfl
@[simp] theorem incI_pc (s : State) : (incI s).pc = s.pc := rfl
@[simp] theorem incI_stack (s : State) : (incI s).stack = s.stack := rfl
@[simp] theorem incI_sp (s : State) : (incI s).sp = s.sp := rfl
@[simp] theorem incI_dt (s : State) : (incI s).dt = s.dt := rfl
@[simp] theorem incI_st (s : State) : (incI s).st = s.st := rfl
@[simp] theorem incI_mem (s : State) : (incI s).mem = s.mem := rfl
@[simp] theorem incI_fb (s : State) : (incI s).fb = s.fb := rfl
@[simp] theorem incI_awaiting (s : State) : (incI s).awaiting = s.awaiting := rfl
@[simp] theorem incI_waitX (s : State) : (incI s).waitX = s.waitX := rfl
@[simp] theorem incI_ev (s : State) : (incI s).ev = s.ev := rfl
@[simp] theorem incI_inputs (s : State) : (incI s).inputs = s.inputs := rfl
@[simp] theorem incI_samples (s : State) : (incI s).samples = s.samples := rfl
@[simp] theorem incI_stepped (s : State) : (incI s).stepped = s.stepped := rfl
@[simp] theorem incI_loaded (s : State) : (incI s).loaded = s.loaded := rfl

/-! ### `setFlag` -/

@[simp] theorem setFlag_v (c : Bool) (s : State) : (setFlag c s).v = s.v.set Reg.vf (flagByte c) := rfl
@[simp] theorem setFlag_i (c : Bool) (s : State) : (setFlag c s).i = s.i := rfl
@[simp] theorem setFlag_pc (c : Bool) (s : State) : (setFlag c s).pc = s.pc := rfl
@[simp] theorem setFlag_stack (c : Bool) (s : State) : (setFlag c s).stack = s.stack := rfl
@[simp] theorem setFlag_sp (c : Bool) (s : State) : (setFlag c s).sp = s.sp := rfl
@[simp] theorem setFlag_dt (c : Bool) (s : State) : (setFlag c s).dt = s.dt := rfl
@[simp] theorem setFlag_st (c : Bool) (s : State) : (setFlag c s).st = s.st := rfl
@[simp] theorem setFlag_mem (c : Bool) (s : State) : (setFlag c s).mem = s.mem := rfl
@[simp] theorem setFlag_fb (c : Bool) (s : State) : (setFlag c s).fb = s.fb := rfl
@[simp] theorem setFlag_awaiting (c : Bool) (s : State) : (setFlag c s).awaiting = s.awaiting := rfl
@[simp] theorem setFlag_waitX (c : Bool) (s : State) : (setFlag c s).waitX = s.waitX := rfl
@[simp] theorem setFlag_ev (c : Bool) (s : State) : (setFlag c s).ev = s.ev := rfl
@[simp] theorem setFlag_inputs (c : Bool) (s : State) : (setFlag c s).inputs = s.inputs := rfl
@[simp] theorem setFlag_samples (c : Bool) (s : State) : (setFlag c s).samples = s.samples := rfl
@[simp] theorem setFlag_stepped (c : Bool) (s : State) : (setFlag c s).stepped = s.stepped := rfl
@[simp] theorem setFlag_loaded (c : Bool) (s : State) : (setFlag c s).loaded = s.loaded := rfl

/-! ### `checkAddr`: the fields it never touches -/

@[simp] theorem checkAddr_v (a : Nat) (s : State) : (checkAddr a s).v = s.v := by unfold checkAddr; split <;> rfl
@[simp] theorem checkAddr_i (a : Nat) (s : State) : (checkAddr a s).i = s.i := by unfold checkAddr; split <;> rfl
@[simp] theorem checkAddr_pc (a : Nat) (s : State) : (checkAddr a s).pc = s.pc := by unfold checkAddr; split <;> rfl
@[simp] theorem checkAddr_stack (a : Nat) (s : State) : (checkAddr a s).stack = s.stack := by unfold checkAddr; split <;> rfl
@[simp] theorem checkAddr_sp (a : Nat) (s : State) : (checkAddr a s).sp = s.sp := by unfold checkAddr; split <;> rfl
@[simp] theorem checkAddr_dt (a : Nat) (s : State) : (checkAddr a s).dt = s.dt := by unfold checkAddr; split <;> rfl
@[simp] theorem checkAddr_st (a : Nat) (s : State) : (checkAddr a s).st = s.st := by unfold checkAddr; split <;> rfl
@[simp] theorem checkAddr_mem (a : Nat) (s : State) : (checkAddr a s).mem = s.mem := by unfold checkAddr; split <;> rfl
@[simp] theorem checkAddr_fb (a : Nat) (s : State) : (checkAddr a s).fb = s.fb := by unfold checkAddr; split <;> rfl
@[simp] theorem checkAddr_awaiting (a : Nat) (s : State) : (checkAddr a s).awaiting = s.awaiting := by unfold checkAddr; split <;> rfl
@[simp] theorem checkAddr_waitX (a : Nat) (s : State) : (checkAddr a s).waitX = s.waitX := by unfold checkAddr; split <;> rfl
@[simp] theorem checkAddr_inputs (a : Nat) (s : State) : (checkAddr a s).inputs = s.inputs := by unfold checkAddr; split <;> rfl
@[simp] theorem checkAddr_samples (a : Nat) (s : State) : (checkAddr a s).samples = s.samples := by unfold checkAddr; split <;> rfl
@[simp] theorem checkAddr_stepped (a : Nat) (s : State) : (checkAddr a s).stepped = s.stepped := by unfold checkAddr; split <;> rfl
@[simp] theorem checkAddr_loaded (a : Nat) (s : State) : (checkAddr a s).loaded = s.loaded := by unfold checkAddr; split <;> rfl

/-! ### `memWrite`: the fields it never touches -/

@[simp] theorem memWrite_v (a : Nat) (x : Byte) (s : State) : (memWrite a x s).v = s.v := by unfold memWrite; split <;> rfl
@[simp] theorem memWrite_i (a : Nat) (x : Byte) (s : State) : (memWrite a x s).i = s.i := by unfold memWrite; split <;> rfl
@[simp] theorem memWrite_pc (a : Nat) (x : Byte) (s : State) : (memWrite a x s).pc = s.pc := by unfold memWrite; split <;> rfl
@[simp] theorem memWrite_stack (a : Nat) (x : Byte) (s : State) : (memWrite a x s).stack = s.stack := by unfold memWrite; split <;> rfl
@[simp] theorem memWrite_sp (a : Nat) (x : Byte) (s : State) : (memWrite a x s).sp = s.sp := by unfold memWrite; split <;> rfl
@[simp] theorem memWrite_dt (a : Nat) (x : Byte) (s : State) : (memWrite a x s).dt = s.dt := by unfold memWrite; split <;> rfl
@[simp] theorem memWrite_st (a : Nat) (x : Byte) (s : State) : (memWrite a x s).st = s.st := by unfold memWrite; split <;> rfl
@[simp] theorem memWrite_fb (a : Nat) (x : Byte) (s : State) : (memWrite a x s).fb = s.fb := by unfold memWrite; split <;> rfl
@[simp] theorem memWrite_awaiting (a : Nat) (x : Byte) (s : State) : (memWrite a x s).awaiting = s.awaiting := by unfold memWrite; split <;> rfl
@[simp] theorem memWrite_waitX (a : Nat) (x : Byte) (s : State) : (memWrite a x s).waitX = s.waitX := by unfold memWrite; split <;> rfl
@[simp] theorem memWrite_inputs (a : Nat) (x : Byte) (s : State) : (memWrite a x s).inputs = s.inputs := by unfold memWrite; split <;> rfl
@[simp] theorem memWrite_samples (a : Nat) (x : Byte) (s : State) : (memWrite a x s).samples = s.samples := by unfold memWrite; split <;> rfl
@[simp] theorem memWrite_stepped (a : Nat) (x : Byte) (s : State) : (memWrite a x s).stepped = s.stepped := by unfold memWrite; split <;> rfl
@[simp] theorem memWrite_loaded (a : Nat) (x : Byte) (s : State) : (memWrite a x s).loaded = s.loaded := by unfold memWrite; split <;> rfl

/-! ### `takeKey`: the fields it never touches -/

@[simp] theorem takeKey_i (x : Reg) (s : State) : (takeKey x s).i = s.i := rfl
@[simp] theorem takeKey_stack (x : Reg) (s : State) : (takeKey x s).stack = s.stack := rfl
@[simp] theorem takeKey_sp (x : Reg) (s : State) : (takeKey x s).sp = s.sp := rfl
@[simp] theorem takeKey_dt (x : Reg) (s : State) : (takeKey x s).dt = s.dt := rfl
@[simp] theorem takeKey_st (x : Reg) (s : State) : (takeKey x s).st = s.st := rfl
@[simp] theorem takeKey_mem (x : Reg) (s : State) : (takeKey x s).mem = s.mem := rfl
@[simp] theorem takeKey_fb (x : Reg) (s : State) : (takeKey x s).fb = s.fb := rfl
@[simp] theorem takeKey_waitX (x : Reg) (s : State) : (takeKey x s).waitX = s.waitX := rfl
@[simp] theorem takeKey_ev (x : Reg) (s : State) : (takeKey x s).ev = s.ev := rfl
@[simp] theorem takeKey_inputs (x : Reg) (s : State) : (takeKey x s).inputs = s.inputs := rfl
@[simp] theorem takeKey_samples (x : Reg) (s : State) : (takeKey x s).samples = s.samples := rfl
@[simp] theorem takeKey_stepped (x : Reg) (s : State) : (takeKey x s).stepped = s.stepped := rfl
@[simp] theorem takeKey_loaded (x : Reg) (s : State) : (takeKey x s).loaded = s.loaded := rfl

/-! ### `skipIf`: the fields it never touches -/

@[simp] theorem skipIf_v (c : Bool) (s : State) : (skipIf c s).v = s.v := by cases c <;> rfl
@[simp] theorem skipIf_i (c : Bool) (s : State) : (skipIf c s).i = s.i := by cases c <;> rfl
@[simp] theorem skipIf_stack (c : Bool) (s : State) : (skipIf c s).stack = s.stack := by cases c <;> rfl
@[simp] theorem skipIf_sp (c : Bool) (s : State) : (skipIf c s).sp = s.sp := by cases c <;> rfl
@[simp] theorem skipIf_dt (c : Bool) (s : State) : (skipIf c s).dt = s.dt := by cases c <;> rfl
@[simp] theorem skipIf_st (c : Bool) (s : State) : (skipIf c s).st = s.st := by cases c <;> rfl
@[simp] theorem skipIf_mem (c : Bool) (s : State) : (skipIf c s).mem = s.mem := by cases c <;> rfl
@[simp] theorem skipIf_fb (c : Bool) (s : State) : (skipIf c s).fb = s.fb := by cases c <;> rfl
@[simp] theorem skipIf_awaiting (c : Bool) (s : State) : (skipIf c s).awaiting = s.awaiting := by cases c <;> rfl
@[simp] theorem skipIf_waitX (c : Bool) (s : State) : (skipIf c s).waitX = s.waitX := by cases c <;> rfl
@[simp] theorem skipIf_ev (c : Bool) (s : State) : (skipIf c s).ev = s.ev := by cases c <;> rfl
@[simp] theorem skipIf_inputs (c : Bool) (s : State) : (skipIf c s).inputs = s.inputs := by cases c <;> rfl
@[simp] theorem skipIf_samples (c : Bool) (s : State) : (skipIf c s).samples = s.samples := by cases c <;> rfl
@[simp] theorem skipIf_stepped (c : Bool) (s : State) : (skipIf c s).stepped = s.stepped := by cases c <;> rfl
@[simp] theorem skipIf_loaded (c : Bool) (s : State) : (skipIf c s).loaded = s.loaded := by cases c <;> rfl

end Sys2Proof.Machine
end

