-- ==== Sys2Proof/Laws/Ops.lean ====
section
/-!
SUPPORT. For each shared operation of Machine/Ops.lean, Operands.lean and Flags.lean what it does, once,
and for the loops of Machine/Display.lean and Block.lean one step. Callers cite these instead of
unfolding the operations.
-/

namespace Sys2Proof.Machine

/-! ## Reading through an update -/

@[simp] theorem getV_setV (s : State) (x y : Reg) (b : Byte) :
    (s.setV x b).getV y = if y = x then b else s.getV y := by
  simp [State.getV, State.setV, Vector.getElem_set, Fin.ext_iff, eq_comm]

@[simp] theorem getV_setFlag (c : Bool) (s : State) (y : Reg) :
    (setFlag c s).getV y = if y = 15 then flagByte c else s.getV y := getV_setV s Reg.vf y _

/-- A register reads the same in any state with the same registers. -/
theorem getV_congr {s t : State} (h : t.v = s.v) (x : Reg) : t.getV x = s.getV x := by
  simp [State.getV, h]

/-- A byte reads the same in any state with the same memory. -/
theorem byteAt_congr {s t : State} (h : t.mem = s.mem) (a : Nat) : t.byteAt a = s.byteAt a := by
  simp [State.byteAt, h]

/-- A slot reads the same in any state with the same stack. -/
theorem slot_congr {s t : State} (h : t.stack = s.stack) (k : BitVec 4) : t.slot k = s.slot k := by
  simp [State.slot, h]

/-- The inputs are the same in any state with the same lined-up inputs and sample count. -/
theorem sample_congr {s t : State} (h : t.inputs = s.inputs) (h' : t.samples = s.samples) :
    t.sample = s.sample := by
  simp [State.sample, h, h']

/-- A bounds-checked read never answers a stored byte above 0xFFF (R41). -/
theorem byteAt_outOfRange (s : State) {a : Nat} (h : 0xFFF < a) : s.byteAt a = 0 := by
  have : ¬a < 4096 := by omega
  simp [State.byteAt, inRange, Config.memSize, this]

theorem byteAt_inRange (s : State) {a : Nat} (h : a ≤ 0xFFF) : s.byteAt a = s.mem.read a := by
  have : a < 4096 := by omega
  simp [State.byteAt, inRange, Config.memSize, this]

/-! ## Memory -/

/-- The event of an access: raised exactly when the address is above 0xFFF (R41). -/
theorem checkAddr_eq (a : Nat) (s : State) :
    checkAddr a s = { s with ev := { s.ev with addrOor := s.ev.addrOor || decide (0xFFF < a) } } := by
  unfold checkAddr inRange raiseAddrOor Config.memSize
  by_cases h : a < 4096
  · have : ¬0xFFF < a := by omega
    simp [h, this]
  · have : 0xFFF < a := by omega
    simp [h, this]

@[simp] theorem checkAddr_ev (a : Nat) (s : State) :
    (checkAddr a s).ev = { s.ev with addrOor := s.ev.addrOor || decide (0xFFF < a) } := by
  rw [checkAddr_eq]

theorem checkAddr_of_inRange {a : Nat} (h : a ≤ 0xFFF) (s : State) : checkAddr a s = s := by
  have : a < 4096 := by omega
  simp [checkAddr, inRange, Config.memSize, this]

/-- `MemRead` answers the byte and does to the state what the check does (R41). -/
theorem memRead_eq (a : Nat) (s : State) : memRead a s = (s.byteAt a, checkAddr a s) := rfl

@[simp] theorem memWrite_ev (a : Nat) (x : Byte) (s : State) :
    (memWrite a x s).ev = { s.ev with addrOor := s.ev.addrOor || decide (0xFFF < a) } := by
  unfold memWrite inRange raiseAddrOor Config.memSize
  by_cases h : a < 4096
  · have : ¬0xFFF < a := by omega
    simp [h, this]
  · have : 0xFFF < a := by omega
    simp [h, this]

/-- Every byte after `MemWrite`: the stored one at an address in range, the old one anywhere else
(R42). -/
@[simp] theorem byteAt_memWrite (a b : Nat) (x : Byte) (s : State) :
    (memWrite a x s).byteAt b = if b = a ∧ a ≤ 0xFFF then x else s.byteAt b := by
  unfold memWrite State.byteAt inRange raiseAddrOor Config.memSize
  by_cases h : a < 4096
  · have h' : a ≤ 0xFFF := by omega
    by_cases e : b = a
    · subst e; simp [h, h']
    · simp [h, e]
  · have h' : ¬a ≤ 0xFFF := by omega
    simp [h, h']

/-- `MemWrite` keeps the canonical form. -/
theorem memWrite_wf (a : Nat) (x : Byte) {s : State} (h : s.mem.wf) : (memWrite a x s).mem.wf := by
  unfold memWrite inRange
  by_cases ha : a < Config.memSize
  · simpa [ha] using Memory.wf_write x h ha
  · simpa [ha] using h

/-! ## Call stack -/

theorem slot_push (a : Word) (s : State) (k : BitVec 4) :
    (push a s).slot k = if k = s.sp then a else s.slot k := by
  have e : (s.sp.toNat = k.toNat) = (k = s.sp) := by
    rw [eq_comm (a := k)]; exact propext BitVec.toNat_inj
  simp only [State.slot, push]
  exact (Vector.getElem_set _ _).trans (by simp only [BitVec.val_toFin, e]; rfl)

theorem slot_pop (s : State) (k : BitVec 4) : (pop s).2.slot k = s.slot k := rfl

theorem pop_fst (s : State) : (pop s).1 = s.slot (popPointer s.sp) := rfl

/-- A pop lowers the pointer by one, not below 0 (R19). -/
theorem popPointer_toNat (sp : BitVec 4) : (popPointer sp).toNat = sp.toNat - 1 := by
  revert sp; decide

/-- A pop undoes a push's pointer, but for the push that wrapped (R18, R19). -/
theorem popPointer_add_one {sp : BitVec 4} (h : sp ≠ 15) : popPointer (sp + 1) = sp := by
  revert sp; decide

/-! ## Program counter -/

@[simp] theorem skipIf_pc (c : Bool) (s : State) :
    (skipIf c s).pc = if c then s.pc + 4 else s.pc + 2 := by
  cases c
  · rfl
  · simp only [skipIf, nextPC, skip, if_true, BitVec.add_assoc]; rfl

/-! ## Keys -/

/-- `LowestKey` of a latch with a key down is a key that is down, and no lower one is (R182). -/
theorem lowestKey_spec {keys : BitVec 16} (h : keys ≠ 0) :
    keys.getLsbD (lowestKey keys).toNat = true ∧
      (∀ k < (lowestKey keys).toNat, keys.getLsbD k = false) ∧ (lowestKey keys).toNat < 16 := by
  have hex : ∃ k, k < 16 ∧ keys.getLsbD k = true := by
    by_contra hno
    refine h (BitVec.eq_of_getLsbD_eq fun k hk => ?_)
    have : ¬keys.getLsbD k = true := fun hk' => hno ⟨k, hk, hk'⟩
    simpa using this
  unfold lowestKey
  cases hf : (List.range 16).find? (fun k => keys.getLsbD k) with
  | none =>
    obtain ⟨k, hk, hb⟩ := hex
    exact absurd hb (List.find?_eq_none.mp hf k (List.mem_range.mpr hk))
  | some k =>
    obtain ⟨hb, as, bs, hsplit, hbefore⟩ := List.find?_eq_some_iff_append.mp hf
    have hk : k < 16 := List.mem_range.mp (List.mem_of_find?_eq_some hf)
    have hval : (BitVec.ofNat 8 k).toNat = k := by
      simp only [BitVec.toNat_ofNat]; omega
    simp only [hval]
    refine ⟨hb, fun j hj => ?_, hk⟩
    have hj16 : j ∈ List.range 16 := List.mem_range.mpr (by omega)
    have hsorted : (List.range 16).Pairwise (· < ·) := List.pairwise_lt_range
    rw [hsplit] at hj16 hsorted
    rcases List.mem_append.mp hj16 with hja | hjb
    · simpa using hbefore j hja
    · have := (List.pairwise_append.mp hsorted).2.1
      rcases List.mem_cons.mp hjb with rfl | hjb
      · omega
      · exact absurd ((List.pairwise_cons.mp this).1 j hjb) (by omega)

theorem takeKey_eq (x : Reg) (s : State) :
    takeKey x s = { s with v := s.v.set x (lowestKey s.keys), awaiting := false, pc := s.pc + 2 } := rfl

@[simp] theorem takeKey_getV (x r : Reg) (s : State) :
    (takeKey x s).getV r = if r = x then lowestKey s.keys else s.getV r :=
  getV_setV s x r _

@[simp] theorem takeKey_pc (x : Reg) (s : State) : (takeKey x s).pc = s.pc + 2 := rfl
@[simp] theorem takeKey_awaiting (x : Reg) (s : State) : (takeKey x s).awaiting = false := rfl

/-! ## Timers -/

/-- A tick is one less, not below 0 (R23). -/
@[simp] theorem tickDown_toNat (t : Byte) : (tickDown t).toNat = t.toNat - 1 := by
  unfold tickDown
  split
  · rename_i h; simp [h]
  · rename_i h
    have : t.toNat ≠ 0 := fun e => h (BitVec.toNat_inj.mp e)
    rw [BitVec.toNat_sub_of_le] <;> simp [BitVec.le_def]; omega

/-! ## Fetch -/

/-- A fetch answers the word at PC and PC + 1, and of the state changes only the event, raised when
PC + 1 is above 0xFFF (R82). -/
theorem fetch_eq (s : State) :
    fetch s = (fetchedWord s,
      { s with ev := { s.ev with addrOor := s.ev.addrOor || decide (0xFFF ≤ s.pc.toNat) } }) := by
  have h : (s.ev.addrOor || decide (0xFFF < s.pc.toNat) || decide (0xFFF < s.pc.toNat + 1))
      = (s.ev.addrOor || decide (0xFFF ≤ s.pc.toNat)) := by
    rw [Bool.or_assoc]; congr 1
    rw [Bool.eq_iff_iff]; simp; omega
  simp only [fetch, memRead_eq, checkAddr_eq, fetchedWord, h]
  rfl

/-- Nothing is fetched above memory but the word 0x0000 (R82). -/
theorem fetchedWord_outOfRange (s : State) (h : 0xFFF < s.pc.toNat) : fetchedWord s = 0 := by
  rw [fetchedWord, byteAt_outOfRange s h, byteAt_outOfRange s (by omega)]
  decide

/-! ## Flags -/

theorem flagByte_toNat (c : Bool) : (flagByte c).toNat = if c then 1 else 0 := by cases c <;> rfl

theorem carry_iff (a b : Byte) : carry a b = true ↔ a.toNat + b.toNat > 0xFF := by
  simp [carry, exactSum]

theorem noBorrow_iff (a b : Byte) : noBorrow a b = true ↔ b.toNat ≤ a.toNat := by
  simp [noBorrow, exactDiff]

/-- The stored difference is the exact one modulo 256 (R150). -/
theorem ofInt_exactDiff_toNat (a b : Byte) :
    (BitVec.ofInt 8 (exactDiff a b)).toNat
      = if a.toNat < b.toNat then a.toNat + 256 - b.toNat else a.toNat - b.toNat := by
  have ha := a.isLt
  have hb := b.isLt
  simp only [BitVec.toNat_ofInt, exactDiff]
  split <;> omega

/-! ## One turn of each loop -/

theorem storeRegs_succ (n : Nat) (s : State) :
    storeRegs (n + 1) s = incI (memWrite (storeRegs n s).i.toNat
      ((storeRegs n s).getV (blockReg n)) (storeRegs n s)) := rfl

theorem loadRegs_succ (n : Nat) (s : State) :
    loadRegs (n + 1) s = incI ((checkAddr (loadRegs n s).i.toNat (loadRegs n s)).setV (blockReg n)
      ((loadRegs n s).byteAt (loadRegs n s).i.toNat)) := rfl

/-- `XorPixel` answers the cell as it was, and toggles that cell alone (R161). -/
theorem cell_xorPixel (fb : Frame) (col c : Fin 64) (row r : Fin 32) :
    (xorPixel fb col row).1 = fb.cell row col ∧
    (xorPixel fb col row).2.cell r c
      = if r = row ∧ c = col then !fb.cell row col else fb.cell r c := by
  refine ⟨rfl, ?_⟩
  simp only [xorPixel, Frame.cell]
  by_cases hr : r = row
  · subst hr
    by_cases hc : c = col
    · subst hc; simp
    · have : ¬(col.val = c.val) := fun e => hc (Fin.ext e.symm)
      simp [hc, this]
  · have : ¬(row.val = r.val) := fun e => hr (Fin.ext e.symm)
    simp [hr, this]

theorem drawRows_succ (x0 y0 : Byte) (n : Nat) (q : State × Bool) :
    drawRows x0 y0 (n + 1) q = drawRow x0 y0 n (drawRows x0 y0 n q) := rfl

end Sys2Proof.Machine
end

