-- ==== Sys2Proof/Laws/Frames.lean ====
section
/-!
SUPPORT. Frames (Safety.lean `OnlyChanges`): they weaken and compose, and each shared operation changes
only the parts named here.
-/

namespace Sys2Proof.Machine

theorem OnlyChanges.refl (ps : List Part) (s : State) : OnlyChanges ps s s := by
  intro p _; cases p <;> simp [Part.same]

theorem Part.same_trans {p : Part} {s t u : State} (h : p.same s t) (h' : p.same t u) :
    p.same s u := by
  cases p <;> simp_all [Part.same]

theorem OnlyChanges.trans {ps : List Part} {s t u : State} (h : OnlyChanges ps s t)
    (h' : OnlyChanges ps t u) : OnlyChanges ps s u :=
  fun p hp => Part.same_trans (h p hp) (h' p hp)

theorem OnlyChanges.mono {ps qs : List Part} {s t : State} (h : OnlyChanges ps s t)
    (hsub : ∀ p ∈ ps, p ∈ qs) : OnlyChanges qs s t :=
  fun p hp => h p fun hp' => hp (hsub p hp')

/-- A frame from equal fields: every part outside the list has its fields unchanged. -/
theorem OnlyChanges.of_fields {ps : List Part} {s t : State}
    (hv : .v ∈ ps ∨ t.v = s.v) (hi : .i ∈ ps ∨ t.i = s.i) (hpc : .pc ∈ ps ∨ t.pc = s.pc)
    (hstack : .stack ∈ ps ∨ (t.stack = s.stack ∧ t.sp = s.sp)) (hdt : .dt ∈ ps ∨ t.dt = s.dt)
    (hst : .st ∈ ps ∨ t.st = s.st) (hmem : .mem ∈ ps ∨ t.mem = s.mem)
    (hfb : .fb ∈ ps ∨ t.fb = s.fb)
    (hwait : .wait ∈ ps ∨ (t.awaiting = s.awaiting ∧ t.waitX = s.waitX))
    (hev : .ev ∈ ps ∨ t.ev = s.ev)
    (hhost : .host ∈ ps ∨ (t.inputs = s.inputs ∧ t.samples = s.samples ∧ t.stepped = s.stepped))
    (hloaded : .loaded ∈ ps ∨ t.loaded = s.loaded) :
    OnlyChanges ps s t := by
  intro p hp
  cases p
  case v => exact fun r => getV_congr (hv.resolve_left hp) r
  case i => exact hi.resolve_left hp
  case pc => exact hpc.resolve_left hp
  case stack => exact ⟨fun k => slot_congr (hstack.resolve_left hp).1 k, (hstack.resolve_left hp).2⟩
  case dt => exact hdt.resolve_left hp
  case st => exact hst.resolve_left hp
  case mem => exact fun a => byteAt_congr (hmem.resolve_left hp) a
  case fb => exact fun row col => by rw [hfb.resolve_left hp]
  case wait => exact hwait.resolve_left hp
  case ev => exact hev.resolve_left hp
  case host => exact hhost.resolve_left hp
  case loaded => exact hloaded.resolve_left hp

theorem nextPC_frame (s : State) : OnlyChanges [.pc] s (nextPC s) := by
  apply OnlyChanges.of_fields <;> simp

theorem skipIf_frame (c : Bool) (s : State) : OnlyChanges [.pc] s (skipIf c s) := by
  apply OnlyChanges.of_fields <;> simp

theorem jumpTo_frame (a : Word) (s : State) : OnlyChanges [.pc] s (jumpTo a s) := by
  apply OnlyChanges.of_fields <;> simp

theorem setV_frame (x : Reg) (b : Byte) (s : State) : OnlyChanges [.v] s (s.setV x b) := by
  apply OnlyChanges.of_fields <;> simp

theorem setI_frame (w : Word) (s : State) : OnlyChanges [.i] s (setI w s) := by
  apply OnlyChanges.of_fields <;> simp

theorem checkAddr_frame (a : Nat) (s : State) : OnlyChanges [.ev] s (checkAddr a s) := by
  apply OnlyChanges.of_fields <;> simp

theorem memWrite_frame (a : Nat) (x : Byte) (s : State) :
    OnlyChanges [.mem, .ev] s (memWrite a x s) := by
  apply OnlyChanges.of_fields <;> simp

theorem push_frame (a : Word) (s : State) : OnlyChanges [.stack] s (push a s) := by
  apply OnlyChanges.of_fields <;> simp

theorem pop_frame (s : State) : OnlyChanges [.stack] s (pop s).2 := by
  apply OnlyChanges.of_fields <;> simp

theorem takeKey_frame (x : Reg) (s : State) : OnlyChanges [.v, .pc, .wait] s (takeKey x s) := by
  apply OnlyChanges.of_fields <;> simp

theorem clearEvents_frame (s : State) : OnlyChanges [.ev] s (clearEvents s) := by
  apply OnlyChanges.of_fields <;> simp

theorem beginStep_frame (s : State) : OnlyChanges [.ev] s (beginStep s) := by
  apply OnlyChanges.of_fields <;> simp

theorem endStep_frame (s : State) : OnlyChanges [.dt, .st, .host] s (endStep s) := by
  apply OnlyChanges.of_fields <;> simp

end Sys2Proof.Machine
end

