-- ==== Sys2Proof/Laws/Inputs.lean ====
section
/-!
SUPPORT. Lining up other inputs (Machine/Ports.lean `driveInputs`) commutes with every operation that
branches on the state; with the others it does so by definition.
-/

namespace Sys2Proof.Machine

theorem memWrite_driveInputs (inputs : List Inputs) (a : Nat) (x : Byte) (s : State) :
    memWrite a x (driveInputs inputs s) = driveInputs inputs (memWrite a x s) := by
  unfold memWrite; split <;> rfl

theorem checkAddr_driveInputs (inputs : List Inputs) (a : Nat) (s : State) :
    checkAddr a (driveInputs inputs s) = driveInputs inputs (checkAddr a s) := by
  unfold checkAddr; split <;> rfl

theorem skipIf_driveInputs (inputs : List Inputs) (c : Bool) (s : State) :
    skipIf c (driveInputs inputs s) = driveInputs inputs (skipIf c s) := by
  cases c <;> rfl

end Sys2Proof.Machine
end

