-- ==== Sys2Proof/Laws/PerInstr.lean ====
section
/-!
SUPPORT. Lemmas made per instruction. RowMatches: every instruction is well formed, and its encoded word
matches the mask and the match value that the opcode map (spec/30_encoding.md R65) has in its row.
-/

namespace Sys2Proof.Laws.RowMatches

/-- The mask and the match value of an instruction's row of R65. -/
def maskAndMatch : Instr → Word × Word
  | .cls => (0xFFFF, 0x00E0)
  | .ret => (0xFFFF, 0x00EE)
  | .jp _ => (0xF000, 0x1000)
  | .call _ => (0xF000, 0x2000)
  | .seImm _ _ => (0xF000, 0x3000)
  | .sneImm _ _ => (0xF000, 0x4000)
  | .seReg _ _ => (0xF00F, 0x5000)
  | .ldImm _ _ => (0xF000, 0x6000)
  | .addImm _ _ => (0xF000, 0x7000)
  | .mov _ _ => (0xF00F, 0x8000)
  | .or _ _ => (0xF00F, 0x8001)
  | .and _ _ => (0xF00F, 0x8002)
  | .xor _ _ => (0xF00F, 0x8003)
  | .add _ _ => (0xF00F, 0x8004)
  | .sub _ _ => (0xF00F, 0x8005)
  | .shr _ _ => (0xF00F, 0x8006)
  | .subn _ _ => (0xF00F, 0x8007)
  | .shl _ _ => (0xF00F, 0x800E)
  | .sneReg _ _ => (0xF00F, 0x9000)
  | .ldI _ => (0xF000, 0xA000)
  | .jpV0 _ => (0xF000, 0xB000)
  | .rnd _ _ => (0xF000, 0xC000)
  | .drw _ _ _ => (0xF000, 0xD000)
  | .skp _ => (0xF0FF, 0xE09E)
  | .sknp _ => (0xF0FF, 0xE0A1)
  | .ldVxDt _ => (0xF0FF, 0xF007)
  | .ldVxK _ => (0xF0FF, 0xF00A)
  | .ldDtVx _ => (0xF0FF, 0xF015)
  | .ldStVx _ => (0xF0FF, 0xF018)
  | .addI _ => (0xF0FF, 0xF01E)
  | .ldF _ => (0xF0FF, 0xF029)
  | .ldB _ => (0xF0FF, 0xF033)
  | .stRegs _ => (0xF0FF, 0xF055)
  | .ldRegs _ => (0xF0FF, 0xF065)

/-- The instruction is well formed and its word is one of its row's. -/
def Statement (i : Instr) : Prop :=
  i.wellFormed = true ∧ encodeWord i &&& (maskAndMatch i).1 = (maskAndMatch i).2

theorem encNNN_and {v : Word} (nnn : Imm12) (h : v &&& 0xF000 = v) : encNNN v nnn &&& 0xF000 = v := by
  rw [encNNN, or_and, h, (placeImm_fields (by decide) nnn).1]; simp

theorem encXNN_and {v : Word} (x : Reg) (nn : Byte) (h : v &&& 0xF000 = v) :
    encXNN v x nn &&& 0xF000 = v := by
  rw [encXNN, or_and, or_and, h, (placeX_fields x).1, (placeImm_fields (by decide) nn).1]; simp

theorem encXY_and {v : Word} (x y : Reg) (h : v &&& 0xF00F = v) : encXY v x y &&& 0xF00F = v := by
  rw [encXY, or_and, or_and, h, (placeX_fields x).2.1, (placeY_fields y).2.1]; simp

theorem encXYN_and {v : Word} (x y : Reg) (n : Nibble) (h : v &&& 0xF000 = v) :
    (encXY v x y ||| n.zeroExtend 16) &&& 0xF000 = v := by
  rw [encXY, or_and, or_and, or_and, h, (placeX_fields x).1, (placeY_fields y).1, (placeN_fields n).1]
  simp

theorem encX_and {v : Word} (x : Reg) (h : v &&& 0xF0FF = v) : encX v x &&& 0xF0FF = v := by
  rw [encX, or_and, h, (placeX_fields x).2.2.1]; simp

theorem cls : Statement .cls := ⟨wellFormed_all _, by decide⟩
theorem ret : Statement .ret := ⟨wellFormed_all _, by decide⟩
theorem jp (nnn : Imm12) : Statement (.jp nnn) := ⟨wellFormed_all _, encNNN_and nnn (by decide)⟩
theorem call (nnn : Imm12) : Statement (.call nnn) := ⟨wellFormed_all _, encNNN_and nnn (by decide)⟩
theorem seImm (x : Reg) (nn : Byte) : Statement (.seImm x nn) := ⟨wellFormed_all _, encXNN_and x nn (by decide)⟩
theorem sneImm (x : Reg) (nn : Byte) : Statement (.sneImm x nn) := ⟨wellFormed_all _, encXNN_and x nn (by decide)⟩
theorem seReg (x : Reg) (y : Reg) : Statement (.seReg x y) := ⟨wellFormed_all _, encXY_and x y (by decide)⟩
theorem ldImm (x : Reg) (nn : Byte) : Statement (.ldImm x nn) := ⟨wellFormed_all _, encXNN_and x nn (by decide)⟩
theorem addImm (x : Reg) (nn : Byte) : Statement (.addImm x nn) := ⟨wellFormed_all _, encXNN_and x nn (by decide)⟩
theorem mov (x : Reg) (y : Reg) : Statement (.mov x y) := ⟨wellFormed_all _, encXY_and x y (by decide)⟩
theorem or (x : Reg) (y : Reg) : Statement (.or x y) := ⟨wellFormed_all _, encXY_and x y (by decide)⟩
theorem and (x : Reg) (y : Reg) : Statement (.and x y) := ⟨wellFormed_all _, encXY_and x y (by decide)⟩
theorem xor (x : Reg) (y : Reg) : Statement (.xor x y) := ⟨wellFormed_all _, encXY_and x y (by decide)⟩
theorem add (x : Reg) (y : Reg) : Statement (.add x y) := ⟨wellFormed_all _, encXY_and x y (by decide)⟩
theorem sub (x : Reg) (y : Reg) : Statement (.sub x y) := ⟨wellFormed_all _, encXY_and x y (by decide)⟩
theorem shr (x : Reg) (y : Reg) : Statement (.shr x y) := ⟨wellFormed_all _, encXY_and x y (by decide)⟩
theorem subn (x : Reg) (y : Reg) : Statement (.subn x y) := ⟨wellFormed_all _, encXY_and x y (by decide)⟩
theorem shl (x : Reg) (y : Reg) : Statement (.shl x y) := ⟨wellFormed_all _, encXY_and x y (by decide)⟩
theorem sneReg (x : Reg) (y : Reg) : Statement (.sneReg x y) := ⟨wellFormed_all _, encXY_and x y (by decide)⟩
theorem ldI (nnn : Imm12) : Statement (.ldI nnn) := ⟨wellFormed_all _, encNNN_and nnn (by decide)⟩
theorem jpV0 (nnn : Imm12) : Statement (.jpV0 nnn) := ⟨wellFormed_all _, encNNN_and nnn (by decide)⟩
theorem rnd (x : Reg) (nn : Byte) : Statement (.rnd x nn) := ⟨wellFormed_all _, encXNN_and x nn (by decide)⟩
theorem drw (x : Reg) (y : Reg) (n : Nibble) : Statement (.drw x y n) := ⟨wellFormed_all _, encXYN_and x y n (by decide)⟩
theorem skp (x : Reg) : Statement (.skp x) := ⟨wellFormed_all _, encX_and x (by decide)⟩
theorem sknp (x : Reg) : Statement (.sknp x) := ⟨wellFormed_all _, encX_and x (by decide)⟩
theorem ldVxDt (x : Reg) : Statement (.ldVxDt x) := ⟨wellFormed_all _, encX_and x (by decide)⟩
theorem ldVxK (x : Reg) : Statement (.ldVxK x) := ⟨wellFormed_all _, encX_and x (by decide)⟩
theorem ldDtVx (x : Reg) : Statement (.ldDtVx x) := ⟨wellFormed_all _, encX_and x (by decide)⟩
theorem ldStVx (x : Reg) : Statement (.ldStVx x) := ⟨wellFormed_all _, encX_and x (by decide)⟩
theorem addI (x : Reg) : Statement (.addI x) := ⟨wellFormed_all _, encX_and x (by decide)⟩
theorem ldF (x : Reg) : Statement (.ldF x) := ⟨wellFormed_all _, encX_and x (by decide)⟩
theorem ldB (x : Reg) : Statement (.ldB x) := ⟨wellFormed_all _, encX_and x (by decide)⟩
theorem stRegs (x : Reg) : Statement (.stRegs x) := ⟨wellFormed_all _, encX_and x (by decide)⟩
theorem ldRegs (x : Reg) : Statement (.ldRegs x) := ⟨wellFormed_all _, encX_and x (by decide)⟩

end Sys2Proof.Laws.RowMatches
end

