-- ==== Sys2Proof/Laws/Step.lean ====
section
/-!
SUPPORT. Everything a step can do, once (spec/40_step_cycle.md R80): which of its three kinds it is, that no
instruction stops, and the two equations of a run.
-/

namespace Sys2Proof.Machine

/-- What `onNext` answers a next state from. -/
theorem onNext_next {f : State → State} {o : Host.Outcome State Fault Refusal} {t : State}
    (h : onNext f o = .next t) : ∃ u, o = .next u ∧ t = f u := by
  cases o with
  | next u => exact ⟨u, rfl, by simpa [onNext] using h.symm⟩
  | fault r => cases r
  | refused r => simp [onNext] at h

/-- The state an instruction finds: the events are those of the fetch alone (R82, R87). -/
def afterFetch (s : State) : State :=
  { s with ev := ⟨decide (0xFFF ≤ s.pc.toNat), false, false⟩ }

theorem fetch_beginStep (s : State) : fetch (beginStep s) = (fetchedWord s, afterFetch s) := by
  rw [fetch_eq]
  simp only [beginStep, clearEvents, Events.clear, afterFetch, Bool.false_or]
  rfl

/-- A step while awaiting a key is the wait step (R86). -/
theorem step_of_awaiting {s : State} (h : s.awaiting = true) :
    step s = .next (endStep (waitStep (beginStep s))) := by
  simp [step, h, onNext]

/-- A step at an unknown opcode is the reported no-op (R85). -/
theorem step_of_unknown {s : State} (h : s.awaiting = false)
    (hd : decodeWord (fetchedWord s) = none) : step s = .next (endStep (execUnknown (afterFetch s))) := by
  simp [step, h, runInstr, fetch_beginStep, hd, onNext]

/-- The inversion of a step that answers a next state: it waited, or met an unknown opcode, or executed the
decoded instruction (R80, R83, R85, R86). -/
theorem step_cases {s t : State} (h : step s = .next t) :
    (s.awaiting = true ∧ t = endStep (waitStep (beginStep s))) ∨
    (s.awaiting = false ∧ decodeWord (fetchedWord s) = none ∧
      t = endStep (execUnknown (afterFetch s))) ∨
    (s.awaiting = false ∧ ∃ i u, decodeWord (fetchedWord s) = some i ∧
      exec i (afterFetch s) = .next u ∧ t = endStep u) := by
  cases ha : s.awaiting with
  | true => exact .inl ⟨rfl, by simpa [step_of_awaiting ha] using h.symm⟩
  | false =>
    refine .inr ?_
    cases hd : decodeWord (fetchedWord s) with
    | none => exact .inl ⟨rfl, rfl, by simpa [step_of_unknown ha hd] using h.symm⟩
    | some i =>
      have hs : onNext endStep (exec i (afterFetch s)) = .next t := by
        simpa [step, ha, runInstr, fetch_beginStep, hd] using h
      obtain ⟨u, hu, rfl⟩ := onNext_next hs
      exact .inr ⟨rfl, i, u, rfl, hu, rfl⟩

/-- No instruction stops. -/
theorem exec_answers_next (i : Instr) (s : State) : ∃ t, exec i s = .next t := by
  cases i <;> exact ⟨_, rfl⟩

@[simp] theorem runSteps_zero (s : State) : runSteps 0 s = .next s := rfl

/-- A run of one step more, from the step's next state. -/
theorem runSteps_succ {s t : State} (n : Nat) (h : step s = .next t) :
    runSteps (n + 1) s = runSteps n t := by
  have h' : Sys2Proof.core.step s = .next t := h
  simp only [runSteps, Host.Core.run, h']
  rfl

end Sys2Proof.Machine
end

