-- ==== Sys2Proof/Tests/Slice0.lean ====
section
/-!
SUPPORT. Tests of single steps. The expected values are those of spec/95_test_vectors.md (the vector's
number is in each docstring) or are worked out by hand from the rule named there, never copied from the
model. After them: for every statement with hypotheses or clauses, a state that meets them.
-/

open Sys2Proof Sys2Proof.Machine

namespace Sys2Proof.Tests

-- One check at a time: each takes a thread with a large stack.
set_option Elab.async false

/-! ## Helpers -/

/-- The reset state, with the host driving `keys` and `rnd` in the next step. -/
def start (keys : BitVec 16 := 0) (rnd : Byte := 0) : State := driveInputs [⟨keys, rnd⟩] State.reset

/-- Registers set, one after another. -/
def withV (l : List (Reg × Byte)) (s : State) : State := l.foldl (fun s p => s.setV p.1 p.2) s

/-- Bytes in memory from an address on. -/
def withMem (a : Nat) (l : List Byte) (s : State) : State := storeProgram a l s

/-- The bytes of memory from an address on. -/
def bytesAt (a n : Nat) (s : State) : List Byte := (List.range n).map fun k => s.byteAt (a + k)

/-- The step of the state with the word placed at PC answers a next state with the property. -/
def gives (w : Nat) (s : State) (p : State → Bool) : Bool :=
  match step (s.withFetchWord 16 w) with
  | .next t => p t
  | _ => false

/-- The next state of a step or an instruction; the state itself where there is none. -/
def nextOf (o : Host.Outcome State Fault Refusal) (s : State) : State :=
  match o with
  | .next t => t
  | _ => s

/-- The last step's outputs, as spec/95_test_vectors.md section 0 writes them. -/
def evBits (s : State) : Bool × Bool × Bool := (s.ev.addrOor, s.ev.unknownOpcode, s.ev.frameChanged)

/-- The columns of a row whose cell is 1. -/
def rowCols (row : Fin 32) (s : State) : List Nat :=
  (List.range 64).filter fun c => s.fb.cell row (Fin.ofNat 64 c)

/-- V[1] = a, V[2] = b, VF = 0xAA; the word is 0x812n (section 2.4). -/
def aluStart (a b : Byte) : State := withV [(1, a), (2, b), (15, 0xAA)] start

/-- V[1], V[2] and VF after it, and PC moved on. -/
def aluGives (n : Nat) (a b r1 r2 f : Byte) : Bool :=
  gives (0x8120 + n) (aluStart a b) fun t =>
    t.getV 1 == r1 && t.getV 2 == r2 && t.getV 15 == f && t.pc == 0x202

/-- The same for the word 0x8F2n: VF = a, V[2] = b; then V[2] and VF. -/
def aluVfGives (n : Nat) (a b r2 f : Byte) : Bool :=
  gives (0x8F20 + n) (withV [(15, a), (2, b)] start) fun t => t.getV 2 == r2 && t.getV 15 == f

/-! ## Well-formedness -/

/-- A register number of 16 does not fit the X field's 4 bits (R61). -/
theorem test_field_value_too_big :
    Field.ok ⟨16, 8, 4⟩ = false ∧ Field.valueFits ⟨16, 8, 4⟩ = false := by
  decide

/-- A field that reaches into bits 15:12 overlaps the family nibble (R61). -/
theorem test_field_in_family :
    Field.ok ⟨0, 8, 5⟩ = false ∧ Field.liesInOperandBits ⟨0, 8, 5⟩ = false := by
  decide

/-- Y and NN share bits 7:4 (R61), so no format has both (R62). -/
theorem test_fields_overlap : Field.disjoint [Field.ofY 1, Field.ofNN 2] = false := by decide

/-- The largest values the fields of `DXYN` and `1NNN` hold are accepted. -/
theorem test_largest_fields_fit :
    (Instr.drw 15 15 15).wellFormed = true ∧ (Instr.jp 0xFFF).wellFormed = true := by decide

/-! ## Decoding: words written out from the patterns of R65 -/

/-- 00EE, 1NNN, 2NNN, BNNN. -/
theorem test_decode_flow :
    decodeTableWord 16 0x00EE = some .ret
    ∧ decodeTableWord 16 0x1ABC = some (.jp 0xABC)
    ∧ decodeTableWord 16 0x2ABC = some (.call 0xABC)
    ∧ decodeTableWord 16 0xB300 = some (.jpV0 0x300) := by decide

/-- 3XNN, 4XNN, 5XY0, 9XY0, EX9E, EXA1. -/
theorem test_decode_skips :
    decodeTableWord 16 0x3A42 = some (.seImm 10 0x42)
    ∧ decodeTableWord 16 0x4A42 = some (.sneImm 10 0x42)
    ∧ decodeTableWord 16 0x5120 = some (.seReg 1 2)
    ∧ decodeTableWord 16 0x9120 = some (.sneReg 1 2)
    ∧ decodeTableWord 16 0xE39E = some (.skp 3)
    ∧ decodeTableWord 16 0xE3A1 = some (.sknp 3) := by decide

/-- 6XNN, 7XNN, ANNN, CXNN, FX1E, FX29. -/
theorem test_decode_load :
    decodeTableWord 16 0x6AFF = some (.ldImm 10 0xFF)
    ∧ decodeTableWord 16 0x7A02 = some (.addImm 10 0x02)
    ∧ decodeTableWord 16 0xAFFF = some (.ldI 0xFFF)
    ∧ decodeTableWord 16 0xC5F0 = some (.rnd 5 0xF0)
    ∧ decodeTableWord 16 0xF21E = some (.addI 2)
    ∧ decodeTableWord 16 0xF329 = some (.ldF 3) := by decide

/-- 8XYn. -/
theorem test_decode_alu :
    decodeTableWord 16 0x8120 = some (.mov 1 2)
    ∧ decodeTableWord 16 0x8121 = some (.or 1 2)
    ∧ decodeTableWord 16 0x8122 = some (.and 1 2)
    ∧ decodeTableWord 16 0x8123 = some (.xor 1 2)
    ∧ decodeTableWord 16 0x8124 = some (.add 1 2)
    ∧ decodeTableWord 16 0x8125 = some (.sub 1 2)
    ∧ decodeTableWord 16 0x8126 = some (.shr 1 2)
    ∧ decodeTableWord 16 0x8127 = some (.subn 1 2)
    ∧ decodeTableWord 16 0x812E = some (.shl 1 2) := by decide

/-- 00E0, DXYN. -/
theorem test_decode_display :
    decodeTableWord 16 0x00E0 = some .cls
    ∧ decodeTableWord 16 0xD125 = some (.drw 1 2 5) := by decide

/-- FX07, FX0A, FX15, FX18. -/
theorem test_decode_timers :
    decodeTableWord 16 0xF407 = some (.ldVxDt 4)
    ∧ decodeTableWord 16 0xF70A = some (.ldVxK 7)
    ∧ decodeTableWord 16 0xF315 = some (.ldDtVx 3)
    ∧ decodeTableWord 16 0xF318 = some (.ldStVx 3) := by decide

/-- FX33, FX55, FX65. -/
theorem test_decode_memory :
    decodeTableWord 16 0xF533 = some (.ldB 5)
    ∧ decodeTableWord 16 0xF255 = some (.stRegs 2)
    ∧ decodeTableWord 16 0xF265 = some (.ldRegs 2) := by decide

/-- R67: words that no pattern has (V2, V4, V6, V7, V9, V10, V11, V12). -/
theorem test_decode_unknown :
    [0x01E0, 0x0123, 0x5121, 0x9AB1, 0x812F, 0xE19F, 0xF100, 0xF175].all
      (fun w => decodeTableWord 16 w == none) = true := by decide

/-- R71, R44: the bytes of `D125`, high byte first. -/
theorem test_encode_bytes :
    encode (.drw 1 2 5) = [0xD1, 0x25] ∧ encode .ret = [0x00, 0xEE] := by decide

/-! ## The step -/

/-- V5: 0xFFFF is a reported no-op; the timers tick. -/
theorem test_unknown_is_noop :
    gives 0xFFFF { withV [(5, 0x55)] start with i := 0x123, dt := 3, st := 1 } (fun t =>
      t.pc == 0x202 && t.getV 5 == 0x55 && t.i == 0x123 && t.dt == 2 && t.st == 0
        && evBits t == (false, true, false)) = true := by decide +kernel

/-- V14: at PC = 0xFFF the low byte is out of range and reads 0x00: word 0x6A00. -/
theorem test_fetch_at_last_byte :
    gives 0x6A77 { withV [(10, 9)] start with pc := 0xFFF } (fun t =>
      t.getV 10 == 0 && t.pc == 0x1001 && evBits t == (true, false, false)) = true := by decide +kernel

/-- V17: both bytes out of range, PC wraps. -/
theorem test_pc_wraps :
    gives 0x6A77 { start with pc := 0xFFFE } (fun t => t.pc == 0
      && evBits t == (true, true, false)) = true := by decide +kernel

/-! ## Flow control -/

/-- V26: RET at SP = 0 returns slot 0 and keeps SP. -/
theorem test_ret_floor :
    gives 0x00EE { start with stack := State.reset.stack.set 0 0xABC } (fun t =>
      t.sp == 0 && t.pc == 0xABC) = true := by decide +kernel

/-- V25. -/
theorem test_ret :
    gives 0x00EE { start with pc := 0x400, sp := 1, stack := State.reset.stack.set 0 0x302 } (fun t =>
      t.sp == 0 && t.pc == 0x302 && t.slot 0 == 0x302) = true := by decide +kernel

/-- V20. -/
theorem test_jp :
    gives 0x1ABC start (fun t => t.pc == 0xABC) = true := by decide +kernel

/-- V24. -/
theorem test_call :
    gives 0x2ABC { start with pc := 0x300 } (fun t =>
      t.slot 0 == 0x302 && t.sp == 1 && t.pc == 0xABC) = true := by decide +kernel

/-- V41, step 1: the pointer wraps and nothing is reported. -/
theorem test_call_wraps :
    gives 0x2ABC { start with pc := 0x300, sp := 15 } (fun t =>
      t.slot 15 == 0x302 && t.sp == 0 && evBits t == (false, false, false)) = true := by decide +kernel

/-- V29: the sum is not reduced to 12 bits. -/
theorem test_jp_v0 :
    gives 0xBFFF (withV [(0, 0xFF)] start) (fun t => t.pc == 0x10FE) = true := by decide +kernel

/-- V30, V31. -/
theorem test_se_imm :
    gives 0x3A42 (withV [(10, 0x42)] start) (fun t => t.pc == 0x204) = true
    ∧ gives 0x3A42 (withV [(10, 0x43)] start) (fun t => t.pc == 0x202) = true := by decide +kernel

/-- V32, V33. -/
theorem test_sne_imm :
    gives 0x4A42 (withV [(10, 0x42)] start) (fun t => t.pc == 0x202) = true
    ∧ gives 0x4A42 (withV [(10, 0x43)] start) (fun t => t.pc == 0x204) = true := by decide +kernel

/-- V34, V35. -/
theorem test_se_reg :
    gives 0x5120 (withV [(1, 7), (2, 7)] start) (fun t => t.pc == 0x204) = true
    ∧ gives 0x5120 (withV [(1, 7), (2, 8)] start) (fun t => t.pc == 0x202) = true := by decide +kernel

/-- V37, V38. -/
theorem test_sne_reg :
    gives 0x9120 (withV [(1, 7), (2, 7)] start) (fun t => t.pc == 0x202) = true
    ∧ gives 0x9120 (withV [(1, 7), (2, 8)] start) (fun t => t.pc == 0x204) = true := by decide +kernel

/-- V160, V165: key 5 down; a key number of 0x15 is never down. -/
theorem test_skp :
    gives 0xE39E (withV [(3, 5)] (start 0x0020)) (fun t => t.pc == 0x204) = true
    ∧ gives 0xE39E (withV [(3, 0x15)] (start 0xFFFF)) (fun t => t.pc == 0x202) = true := by decide +kernel

/-- V162, V165b. -/
theorem test_sknp :
    gives 0xE3A1 (withV [(3, 5)] (start 0x0020)) (fun t => t.pc == 0x202) = true
    ∧ gives 0xE3A1 (withV [(3, 0x15)] (start 0xFFFF)) (fun t => t.pc == 0x204) = true := by decide +kernel

/-! ## Load, add, index, random -/

/-- V50. -/
theorem test_ld_imm :
    gives 0x6AFF start (fun t => t.getV 10 == 0xFF && t.pc == 0x202) = true := by decide +kernel

/-- V22: no carry into VF. -/
theorem test_add_imm :
    gives 0x7A02 (withV [(10, 0xFF), (15, 7)] start) (fun t =>
      t.getV 10 == 1 && t.getV 15 == 7) = true := by decide +kernel

/-- V53. -/
theorem test_ld_i :
    gives 0xAFFF start (fun t => t.i == 0xFFF && t.pc == 0x202) = true := by decide +kernel

/-- V54. -/
theorem test_rnd :
    gives 0xC5F0 (start 0 0xAB) (fun t => t.getV 5 == 0xA0) = true := by decide +kernel

/-- V58: I wraps modulo 2^16, VF is kept. -/
theorem test_add_i :
    gives 0xF21E { withV [(2, 2), (15, 5)] start with i := 0xFFFF } (fun t =>
      t.i == 1 && t.getV 15 == 5) = true := by decide +kernel

/-- V61, V63: the whole byte is multiplied. -/
theorem test_ld_f :
    gives 0xF329 (withV [(3, 0x0F)] start) (fun t => t.i == 0x4B) = true
    ∧ gives 0xF329 (withV [(3, 0xFF)] start) (fun t => t.i == 0x4FB) = true := by decide +kernel

/-! ## ALU family -/

/-- V70, V100. -/
theorem test_mov :
    aluGives 0 0x0F 0xF1 0xF1 0xF1 0xAA = true
    ∧ aluVfGives 0 0xF0 0x20 0x20 0x20 = true := by decide +kernel

/-- V71, V101. -/
theorem test_or :
    aluGives 1 0x0F 0xF1 0xFF 0xF1 0xAA = true
    ∧ aluVfGives 1 0x03 0x05 0x05 0x07 = true := by decide +kernel

/-- V72, V102. -/
theorem test_and :
    aluGives 2 0x0F 0xF1 0x01 0xF1 0xAA = true
    ∧ aluVfGives 2 0x03 0x05 0x05 0x01 = true := by decide +kernel

/-- V72c, V103. -/
theorem test_xor :
    aluGives 3 0x0F 0xF1 0xFE 0xF1 0xAA = true
    ∧ aluVfGives 3 0xF0 0x20 0x20 0xD0 = true := by decide +kernel

/-- V73, V75: 255 does not exceed 255. -/
theorem test_add :
    aluGives 4 0x0F 0xF1 0x00 0xF1 0x01 = true
    ∧ aluGives 4 0x80 0x7F 0xFF 0x7F 0x00 = true := by decide +kernel

/-- V104: the flag is written last. -/
theorem test_add_to_vf :
    aluVfGives 4 0xF0 0x20 0x20 0x01 = true := by decide +kernel

/-- V79, V80: equal operands give no borrow. -/
theorem test_sub :
    aluGives 5 0x10 0x20 0xF0 0x20 0x00 = true
    ∧ aluGives 5 0x33 0x33 0x00 0x33 0x01 = true := by decide +kernel

/-- V85, V109: the old V[X] plays no part. -/
theorem test_shr :
    aluGives 6 0x0F 0xF1 0x78 0xF1 0x01 = true
    ∧ aluVfGives 6 0x03 0x05 0x05 0x01 = true := by decide +kernel

/-- V89, V90. -/
theorem test_subn :
    aluGives 7 0x10 0x20 0x10 0x20 0x01 = true
    ∧ aluGives 7 0x20 0x10 0xF0 0x10 0x00 = true := by decide +kernel

/-- V94, V112: V[Y] gets the shifted value too. -/
theorem test_shl :
    aluGives 14 0x0F 0xF1 0xE2 0xE2 0x01 = true
    ∧ aluVfGives 14 0xF0 0x20 0x40 0x00 = true := by decide +kernel

/-- V123: V[Y] = VF gets 0x02, then the flag. -/
theorem test_shl_from_vf :
    gives 0x81FE (withV [(1, 0x01), (15, 0x81)] start) (fun t =>
      t.getV 1 == 0x02 && t.getV 15 == 0x01) = true := by decide +kernel

/-! ## Display -/

/-- A framebuffer with only the listed cells set. -/
def cells (l : List (Fin 32 × Fin 64)) : Frame :=
  l.foldl (fun fb p => (xorPixel fb p.2 p.1).2) clearFrame

/-- V153: VF and `frame_changed` are not touched. -/
theorem test_cls :
    gives 0x00E0 { withV [(15, 7)] start with fb := cells [(3, 4), (31, 63)] } (fun t =>
      !t.fb.cell 3 4 && !t.fb.cell 31 63 && t.getV 15 == 7 && t.pc == 0x202
      && evBits t == (false, false, false)) = true := by decide +kernel

/-- V145: rows and columns wrap, bit 7 is the leftmost. -/
theorem test_drw_wraps :
    gives 0xD122 { withMem 0x300 [0xC0, 0x30] (withV [(1, 0), (2, 31)] start) with i := 0x300 } (fun t =>
      rowCols 31 t == [0, 1] && rowCols 0 t == [2, 3] && t.getV 15 == 0
        && evBits t == (false, false, true)) = true := by decide +kernel

/-- V150: one of two cells collides. -/
theorem test_drw_collides :
    gives 0xD121 { withMem 0x300 [0xC0] start with i := 0x300, fb := cells [(0, 1)] } (fun t =>
      rowCols 0 t == [0] && t.getV 15 == 1 && t.i == 0x300) = true := by decide +kernel

/-! ## Keys and timers -/

/-- V166, steps 1 and 3: the wait begins; with keys 8 and B down the lowest is taken. -/
theorem test_ld_vx_k :
    gives 0xF70A { withV [(7, 0x99)] start with dt := 5 } (fun t =>
      t.pc == 0x200 && t.awaiting && t.waitX == 7 && t.getV 7 == 0x99 && t.dt == 4) = true
    ∧ gives 0xF70A (start 0x0900) (fun t => t.pc == 0x202 && !t.awaiting && t.getV 7 == 8) = true
      := by decide +kernel

/-- A state that waits for a key at PC = 0xFFFE, with V[2] as the target (V171). -/
def waiting (keys : BitVec 16) : State :=
  { start keys with awaiting := true, waitX := 2, pc := 0xFFFE, dt := 3 }

/-- V170, V171: nothing is fetched; the wait ends with key 1 and PC wraps. -/
theorem test_wait_step :
    (match step (waiting 0x0000) with
      | .next t => t.awaiting && t.pc == 0xFFFE && evBits t == (false, false, false) && t.dt == 2
      | _ => false) = true
    ∧ (match step (waiting 0x0002) with
      | .next t => !t.awaiting && t.pc == 0 && t.getV 2 == 1
      | _ => false) = true := by decide +kernel

/-- V176: read before the tick. -/
theorem test_ld_vx_dt :
    gives 0xF407 { start with dt := 0x0A } (fun t => t.getV 4 == 0x0A && t.dt == 9) = true
      := by decide +kernel

/-- V172: the step that sets DT ticks it. -/
theorem test_ld_dt_vx :
    gives 0xF315 (withV [(3, 0x0A)] start) (fun t => t.dt == 9) = true := by decide +kernel

/-- V175. -/
theorem test_ld_st_vx :
    gives 0xF318 (withV [(3, 0xFF)] start) (fun t => t.st == 0xFE) = true := by decide +kernel

/-! ## Memory instructions -/

/-- V180, V185: the ones digit is dropped at 0x1000. -/
theorem test_ld_b :
    gives 0xF533 { withV [(5, 157)] start with i := 0x300 } (fun t =>
      bytesAt 0x300 3 t == [1, 5, 7] && t.i == 0x300 && t.pc == 0x202) = true
    ∧ gives 0xF533 { withV [(5, 234)] start with i := 0xFFE } (fun t =>
      bytesAt 0xFFE 2 t == [2, 3] && evBits t == (true, false, false)) = true := by decide +kernel

/-- V187. -/
theorem test_st_regs :
    gives 0xF255 { withV [(0, 0x11), (1, 0x22), (2, 0x33), (3, 0x44)] start with i := 0x300 } (fun t =>
      bytesAt 0x300 4 t == [0x11, 0x22, 0x33, 0] && t.i == 0x303) = true := by decide +kernel

/-- V191: I wraps to 0 in the middle. -/
theorem test_st_regs_wraps :
    gives 0xF255 { withV [(0, 0x11), (1, 0x22), (2, 0x33)] start with i := 0xFFFF } (fun t =>
      bytesAt 0 3 t == [0x22, 0x33, 0x90] && t.i == 2 && evBits t == (true, false, false)) = true
      := by decide +kernel

/-- V192. -/
theorem test_ld_regs :
    gives 0xF265 { withMem 0x300 [1, 2, 3, 4] (withV [(3, 0x77)] start) with i := 0x300 } (fun t =>
      t.getV 0 == 1 && t.getV 1 == 2 && t.getV 2 == 3 && t.getV 3 == 0x77 && t.i == 0x303) = true
      := by decide +kernel

/-- V194: 0x00 for the address out of range, then the glyph table. -/
theorem test_ld_regs_wraps :
    gives 0xF265 { withV [(0, 9), (1, 9), (2, 9)] start with i := 0xFFFF } (fun t =>
      t.getV 0 == 0 && t.getV 1 == 0xF0 && t.getV 2 == 0x90 && t.i == 2 && t.ev.addrOor) = true
      := by decide +kernel

/-! ## Reset and load -/

/-- V200, V204. -/
theorem test_reset :
    State.reset.pc = 0x200 ∧ bytesAt 0 5 State.reset = [0xF0, 0x90, 0x90, 0x90, 0xF0]
    ∧ bytesAt 0x4B 6 State.reset = [0xF0, 0x80, 0xF0, 0x80, 0x80, 0x00]
    ∧ (hostReset (waiting 0)).awaiting = false ∧ (hostReset (waiting 0)).pc = 0x200 := by decide +kernel

/-- V201. -/
theorem test_load :
    (match load [0x00, 0xE0, 0x12, 0x00] State.reset with
      | .next t => bytesAt 0x200 5 t == [0x00, 0xE0, 0x12, 0x00, 0x00] && t.pc == 0x200
      | _ => false) = true := by decide +kernel

/-- R254: a second load overlays the first program; the host's `load` refuses it (U18), until a reset.
-/
theorem test_load_twice :
    bytesAt 0x200 4 (loadBytes [0x44] (loadBytes [0x11, 0x22, 0x33] State.reset)) = [0x44, 0x22, 0x33, 0x00]
    ∧ (match load [0x44] (nextOf (load [0x11, 0x22, 0x33] State.reset) start) with
      | .refused .secondLoad => true
      | _ => false) = true
    ∧ (match load [0x44] (hostReset (nextOf (load [0x11] State.reset) start)) with
      | .next t => bytesAt 0x200 2 t == [0x44, 0x00]
      | _ => false) = true := by decide +kernel

/-- R255: 3584 bytes fit, 3585 do not (the bytes are 0x00, so that nothing is listed). -/
theorem test_load_length :
    (match load (List.replicate 3584 0) State.reset with | .next t => t.ev.addrOor | _ => true) = false
    ∧ (match load (List.replicate 3585 0) State.reset
      with | .next t => t.ev.addrOor | _ => false) = true := by decide +kernel

/-- R220: the event vector has AddressOutOfRange in bit 0, `frame_changed` in bit 2. -/
theorem test_event_vector :
    eventVector ⟨true, false, false⟩ = 1 ∧ eventVector ⟨false, true, false⟩ = 2
    ∧ eventVector ⟨false, false, true⟩ = 4 := by decide +kernel

/-! ## Witnesses: states that meet the hypotheses and clauses of the statements

Each is named after its statement. A statement whose hypotheses are a step or an `exec` that answers a
next state is met by the concrete step shown. -/

/-- Reset, and a reset out of a wait. -/
theorem test_witness_reset :
    (State.reset = State.reset ∨ ∃ u, State.reset = hostReset u)
    ∧ ∃ u, hostReset (waiting 0) = hostReset u := ⟨.inl rfl, _, rfl⟩

/-- `ReadIsBoundsChecked`: both sides of 0xFFF. -/
theorem test_witness_read :
    (memRead 0xFFF (withMem 0xFFF [0xA5] start)).1 = 0xA5
    ∧ (memRead 0x1000 start).1 = 0 ∧ (memRead 0x1000 start).2.ev.addrOor = true := by decide +kernel

/-- `WriteIsBoundsChecked`: both sides of 0xFFF; the neighbour is kept. -/
theorem test_witness_write :
    (memWrite 0xFFF 0xA5 start).byteAt 0xFFF = 0xA5 ∧ (memWrite 0xFFF 0xA5 start).byteAt 0xFFE = 0
    ∧ (memWrite 0x1000 0xA5 start).mem = start.mem
    ∧ (memWrite 0x1000 0xA5 start).ev.addrOor = true := by decide +kernel

/-- `LoadPlacesTheProgram`. -/
theorem test_witness_load :
    State.reset.stepped = false ∧ State.reset.loaded = false := ⟨rfl, rfl⟩

/-- `LoadIsRefusedAfterAStep`: a step, and the refusal after it. -/
theorem test_witness_load_refused :
    (match step start with
      | .next t => (match load [0x12] t with | .refused .loadAfterStep => true | _ => false)
      | _ => false) = true := by decide +kernel

/-- `SecondLoadIsRefused`: a load that answers, and the state it leaves. -/
theorem test_witness_second_load :
    (match load [0x12] State.reset with | .next t => t.loaded | _ => false) = true
    ∧ (nextOf (step (nextOf (load [0x12] State.reset) start)) start).loaded = true := by decide +kernel

/-- `DecodeOfEncodeIsTheInstruction`: operands at the top of their fields, bytes left over. -/
theorem test_witness_decode_encode :
    (Instr.drw 15 15 15).wellFormed = true
    ∧ decode (encode (.drw 15 15 15) ++ [0x12]) = .ok (.drw 15 15 15, [0x12]) := by decide

/-- `EncodeOfDecodeIsTheWord`. -/
theorem test_witness_encode_decode :
    decodeWord 0xDFFF = some (.drw 15 15 15) := by decide

/-- `UnknownWordsAreTheListed`: one word for each line, and its neighbours that are known. -/
theorem test_witness_unknown :
    [0x00EF, 0x5001, 0x900F, 0x8008, 0x800F, 0xE000, 0xF066].all (fun w => decodeWord w == none) = true
    ∧ [0x00EE, 0x5000, 0x9000, 0x8007, 0x800E, 0xE0A1, 0xF065].all
      (fun w => decodeWord w != none) = true := by decide

/-- The reset state with `LD_IMM VA, 0x77` at PC. -/
def known : State := start.withFetchWord 16 0x6A77

/-- `StepRunsTheDecodedInstruction`, with PC below 0xFFF and at 0xFFF. -/
theorem test_witness_step_runs :
    known.awaiting = false ∧ decodeWord (fetchedWord known) = some (.ldImm 10 0x77)
    ∧ decodeWord (fetchedWord ({ start with pc := 0xFFF }.withFetchWord 16 0x6A77)) = some (.ldImm 10 0)
      := by decide +kernel

/-- `PlacedWordIsFetched`: bytes 6A 77 at PC (V13), the bytes of `6A77` by R71; the highest PC with both
bytes in memory, and a wait that ends. -/
theorem test_witness_placed :
    fetchedWord (withMem 0x200 [0x6A, 0x77] start) = 0x6A77
    ∧ ((withMem 0x200 [0x6A, 0x77] start).byteAt 0x200).toNat = (encodeWord (.ldImm 10 0x77)).toNat / 256
    ∧ ((withMem 0x200 [0x6A, 0x77] start).byteAt 0x201).toNat = (encodeWord (.ldImm 10 0x77)).toNat % 256
    ∧ (0xFFE : Word).toNat < 0xFFF
    ∧ bytesAt 0xFFE 2 ({ start with pc := 0xFFE, awaiting := true }.withFetchWord 16 0x6A77)
      = [0x6A, 0x77] := by decide +kernel

/-- `UnknownOpcodeIsAReportedNoOp`: V1, and a word above memory. -/
theorem test_witness_unknown_step :
    start.awaiting = false ∧ decodeWord (fetchedWord start) = none
    ∧ decodeWord (fetchedWord { start with pc := 0x1000 }) = none := by decide +kernel

/-- `FetchAboveMemoryIsReported`: the first PC above memory and the last (V16, V18). -/
theorem test_witness_fetch_above :
    start.awaiting = false ∧ (0x1000 : Word).toNat > 0xFFF ∧ (0xFFFF : Word).toNat > 0xFFF
    ∧ evBits (nextOf (step { start with pc := 0x1000 }) start) = (true, true, false)
    ∧ (nextOf (step { start with pc := 0xFFFF }) start).pc = 1 := by decide +kernel

/-- `EveryStepTicksTheTimersLast`: a step that writes DT, one that writes ST, one that writes neither.
-/
theorem test_witness_ticks :
    executed (start.withFetchWord 16 0xF315) = some (.ldDtVx 3)
    ∧ executed (start.withFetchWord 16 0xF318) = some (.ldStVx 3)
    ∧ executed known = some (.ldImm 10 0x77)
    ∧ [0xF315, 0xF318, 0x6A77].all (fun w => gives w start fun _ => true) = true := by decide +kernel

/-- `EventsReportWhatTheStepDid` and `SilentStepsAreTheInRangeOnes`: each event raised by itself (V147,
V1, V185), and a silent step at the last address of memory (I = 0xFFD). -/
theorem test_witness_events :
    gives 0xD120 start (fun t => evBits t == (false, false, true)) = true
    ∧ gives 0x0000 start (fun t => evBits t == (false, true, false)) = true
    ∧ gives 0xF533 { start with i := 0xFFE } (fun t => evBits t == (true, false, false)) = true
    ∧ gives 0xF533 { start with i := 0xFFD } (fun t => evBits t == (false, false, false)) = true
      := by decide +kernel

/-- `SilentStepsAreTheInRangeOnes`: a waiting step is silent, also with PC above memory (V170). -/
theorem test_witness_silent_wait :
    evBits (nextOf (step (waiting 0)) start) = (false, false, false) := by decide +kernel

/-- `InstructionsWriteOnlyTheirColumns`: `exec` answers a next state; 15 is no destination of `8121`. -/
theorem test_witness_columns :
    (match exec (.or 1 2) start with | .next _ => true | _ => false) = true
    ∧ regsWrittenBy (.or 1 2) 15 = false ∧ regsWrittenBy (.or 1 2) 1 = true := by decide

/-- `InputsReachOnlyTheirReaders`: inputs that agree in `keys` alone, for a key instruction; in `rnd`
alone, for the random one; in neither, for the others. -/
theorem test_witness_inputs :
    readsKeys (.skp 3) = true ∧ (driveInputs [⟨0x20, 7⟩] (start 0x20 1)).keys = (start 0x20 1).keys
    ∧ readsRnd (.skp 3) = false
    ∧ readsRnd (.rnd 5 1) = true ∧ (driveInputs [⟨0x40, 7⟩] (start 0x20 7)).rnd = (start 0x20 7).rnd
    ∧ readsKeys (.rnd 5 1) = false ∧ readsKeys .cls = false ∧ readsRnd .cls = false := by decide

/-- `JpLoadsPc`, `JpV0AddsV0`: words with the top nibbles 1 and B; the largest sum (V29). -/
theorem test_witness_jumps :
    (0x1FFF : Word) &&& 0xF000 = 0x1000 ∧ (0xBFFF : Word) &&& 0xF000 = 0xB000
    ∧ (nextOf (exec (.jpV0 0xFFF) (withV [(0, 0xFF)] start)) start).pc = 0x10FE := by decide +kernel

/-- A state with a call's return slot wrapping (V41). -/
def deep : State := { start with pc := 0x300, sp := 15, stack := State.reset.stack.set 0 0x222 }

/-- `CallThenRetReturns`: E2 with SP = 14, and V41 with SP = 15. -/
theorem test_witness_call_ret :
    (nextOf (exec .ret (nextOf (exec (.call 0xABC) { deep with sp := 14 }) deep)) deep).pc = 0x302
    ∧ (nextOf (exec .ret (nextOf (exec (.call 0xABC) { deep with sp := 14 }) deep)) deep).sp = 14
    ∧ (nextOf (exec .ret (nextOf (exec (.call 0xABC) deep) deep)) deep).pc = 0x222
    ∧ (nextOf (exec .ret (nextOf (exec (.call 0xABC) deep) deep)) deep).sp = 0 := by decide +kernel

/-- `CallPushesTheReturnAddress` and `RetPopsIntoPc` at the ends of the stack. -/
theorem test_witness_stack_ends :
    (nextOf (exec (.call 0) deep) deep).sp = 0
    ∧ (nextOf (exec (.call 0) { deep with sp := 14 }) deep).sp = 15
    ∧ (nextOf (exec .ret { deep with sp := 0 }) deep).sp = 0
    ∧ (nextOf (exec .ret { deep with sp := 1 }) deep).sp = 0 := by decide +kernel

/-- `KeySkips`: keys 15 and 16 at the edge (V164, V165c). -/
theorem test_witness_key_skips :
    (nextOf (exec (.skp 3) (withV [(3, 15)] (start 0x8000))) start).pc = 0x204
    ∧ (nextOf (exec (.skp 3) (withV [(3, 16)] (start 0x0001))) start).pc = 0x202
    ∧ (nextOf (exec (.sknp 3) (withV [(3, 15)] (start 0x8000))) start).pc = 0x202
    ∧ (nextOf (exec (.sknp 3) (withV [(3, 16)] (start 0xFFFF))) start).pc = 0x204 := by decide +kernel

/-- `AddSetsCarry`: sums 0xFF and 0x100 (V75, V73b). -/
theorem test_witness_carry :
    aluGives 4 0x80 0x7F 0xFF 0x7F 0x00 = true
    ∧ aluGives 4 0xFF 0x01 0x00 0x01 0x01 = true := by decide +kernel

/-- `SubAndSubnSetNotBorrow`: a borrow, none, and equal operands, both ways (V84, V78, V83, V92, V89,
V91). -/
theorem test_witness_borrow :
    aluGives 5 0x80 0x81 0xFF 0x81 0x00 = true ∧ aluGives 5 0x20 0x10 0x10 0x10 0x01 = true
    ∧ aluGives 5 0x00 0x00 0x00 0x00 0x01 = true
    ∧ aluGives 7 0xFF 0x01 0x02 0x01 0x00 = true ∧ aluGives 7 0x10 0x20 0x10 0x20 0x01 = true
    ∧ aluGives 7 0x33 0x33 0x00 0x33 0x01 = true := by decide +kernel

/-- The clauses for VF as an operand: X = 15 in SUB, SUBN and SHR (V106, V111, V108), Y = 15 in SHL
(V124). -/
theorem test_witness_vf_operand :
    aluVfGives 5 0x03 0x05 0x05 0x00 = true ∧ aluVfGives 7 0x05 0x03 0x03 0x00 = true
    ∧ aluVfGives 6 0xF0 0x20 0x20 0x00 = true
    ∧ gives 0x81FE (withV [(1, 0xF0), (15, 0x20)] start) (fun t =>
      t.getV 1 == 0x40 && t.getV 15 == 0) = true := by decide +kernel

/-- V[1] = 0, V[2] = 0, sprite 0xC0 at 0x300, one of its two cells 1 (V150). -/
def halfSet : State := { withMem 0x300 [0xC0] start with i := 0x300, fb := cells [(0, 1)] }

/-- V[1] = 0, V[2] = 0, sprite 0x80 at 0x300, its one cell 1. -/
def allSet : State := { withMem 0x300 [0x80] start with i := 0x300, fb := cells [(0, 0)] }

/-- `DrwXorsTheSprite`: a collision, no collision, no row (N = 0), and the last row above memory (V149).
-/
theorem test_witness_drw :
    (nextOf (exec (.drw 1 2 1) halfSet) start).getV 15 = 1
    ∧ (nextOf (exec (.drw 1 2 1) { halfSet with fb := clearFrame }) start).getV 15 = 0
    ∧ (nextOf (exec (.drw 1 2 0) (withV [(15, 9)] halfSet)) start).getV 15 = 0
    ∧ (nextOf (exec (.drw 1 2 2) { halfSet with i := 0xFFF }) start).ev = ⟨true, false, true⟩
    ∧ (nextOf (exec (.drw 1 2 1) { halfSet with i := 0xFFF }) start).ev = ⟨false, false, true⟩
      := by decide +kernel

/-- `SpriteCollides` holds of the one and not of the other. -/
theorem test_witness_collides :
    SpriteCollides halfSet 0 0 1 ∧ ¬SpriteCollides { halfSet with fb := clearFrame } 0 0 1 := by
  refine ⟨⟨0, 1, by decide +kernel⟩, fun ⟨row, col, h, _⟩ => ?_⟩
  simp [Frame.cell, clearFrame] at h

/-- `DrawingTwiceRestoresTheFrame`: registers kept by the first draw; the second draw collides when a
cell under the sprite was 0. -/
theorem test_witness_draw_twice :
    (nextOf (exec (.drw 1 2 1) halfSet) start).getV 1 = halfSet.getV 1
    ∧ (nextOf (exec (.drw 1 2 1) halfSet) start).getV 2 = halfSet.getV 2
    ∧ (nextOf (exec (.drw 1 2 1) (nextOf (exec (.drw 1 2 1) halfSet) start)) start).fb = halfSet.fb
    ∧ (nextOf (exec (.drw 1 2 1) (nextOf (exec (.drw 1 2 1) halfSet) start)) start).getV 15 = 1
      := by decide +kernel

/-- notes/assumptions/15.md: R161 and R162 step by step, over a cell that was 1: the first draw turns it
off (VF = 1), the second turns it on again (VF = 0), although the sprite has a 1 bit. -/
theorem test_second_draw_without_collision :
    (nextOf (exec (.drw 1 2 1) allSet) start).getV 15 = 1
    ∧ (nextOf (exec (.drw 1 2 1) (nextOf (exec (.drw 1 2 1) allSet) start)) start).getV 15 = 0
      := by decide +kernel

/-- `LdVxKTakesAKeyOrWaits`: no key, and the highest key alone (V166, V167). -/
theorem test_witness_ld_vx_k :
    start.keys = 0 ∧ (nextOf (exec (.ldVxK 7) start) start).awaiting = true
    ∧ (start 0x8000).keys ≠ 0 ∧ (nextOf (exec (.ldVxK 7) (start 0x8000)) start).getV 7 = 15
      := by decide +kernel

/-- `WaitingStepTicksOrCompletes`: both branches. -/
theorem test_witness_waiting :
    (waiting 0).awaiting = true ∧ (waiting 0).keys = 0 ∧ (waiting 2).awaiting = true
    ∧ (waiting 2).keys ≠ 0 := by decide +kernel

/-- The state after `F70A` at 0x200 with no key down, key 3 going down in the second step after. -/
def atItsInstr : State :=
  driveInputs [⟨0, 0⟩, ⟨8, 0⟩] (nextOf (step (start.withFetchWord 16 0xF70A)) start)

/-- `WaitingStepIsTheInstructionAgain`, `StepsKeepTheWaitAtItsInstruction`: a wait that stands at its
FX0A. -/
theorem test_witness_wait_at_instr :
    atItsInstr.awaiting = true ∧ decodeWord (fetchedWord atItsInstr) = some (.ldVxK atItsInstr.waitX)
      := by decide +kernel

/-- The same as the invariant. -/
theorem test_witness_waits_at_its_instr :
    WaitsAtItsInstr atItsInstr := fun _ => test_witness_wait_at_instr.2

/-- `WaitHoldsWhileNoKeyIsDown`: two steps without a key. -/
theorem test_witness_wait_holds :
    (driveInputs [⟨0, 0⟩, ⟨0, 9⟩] atItsInstr).awaiting = true
    ∧ 2 ≤ (driveInputs [⟨0, 0⟩, ⟨0, 9⟩] atItsInstr).inputs.length
    ∧ ((driveInputs [⟨0, 0⟩, ⟨0, 9⟩] atItsInstr).inputs.take 2).all (fun now => now.keys == 0) = true
      := by decide +kernel

/-- `DelayTimerRunsDownByOneAStep`: one step of a jump, with DT = 1 (V179). -/
theorem test_witness_delay :
    ∀ k < 1, ∀ u x, runSteps k { start.withFetchWord 16 0x1200 with dt := 1 } = .next u →
      executed u ≠ some (.ldDtVx x) := by
  intro k hk u x h
  obtain rfl : k = 0 := by omega
  cases h
  rw [show executed { start.withFetchWord 16 0x1200 with dt := 1 } = some (.jp 0x200) by decide +kernel]
  simp

/-- `LdBStoresTheDigits`: the first address in range and the last not, and none in range (V185, V186).
-/
theorem test_witness_ld_b :
    addrAtI { start with i := 0xFFE } 1 ≤ 0xFFF ∧ ¬addrAtI { start with i := 0xFFE } 2 ≤ 0xFFF
    ∧ (nextOf (exec (.ldB 5) { withV [(5, 234)] start with i := 0xFFFF }) start).mem = []
      := by decide +kernel

/-- `StRegsStoresTheBlock`, `LdRegsLoadsTheBlock`: addresses 0xFFF and 0x1000 (V190, V193), and the
wrap. -/
theorem test_witness_block :
    blockAddr { start with i := 0xFFE } 1 = 0xFFF ∧ blockAddr { start with i := 0xFFE } 2 = 0x1000
    ∧ blockAddr { start with i := 0xFFFF } 1 = 0
    ∧ (nextOf (exec (.stRegs 2) { withV [(0, 0x11), (1, 0x22), (2, 0x33)] start
      with i := 0xFFE }) start).mem
      = [(0xFFE, 0x11), (0xFFF, 0x22)] := by decide +kernel

/-- V[0] = 0x6A, V[1] = 0x2A, I = 0x202 (V198). -/
def storing : State := { withV [(0, 0x6A), (1, 0x2A)] start with i := 0x202 }

/-- `StoredBlockLoadsBack`: other registers by then, I put back, memory as stored. -/
theorem test_witness_block_back :
    storing.i.toNat + (1 : Reg).val ≤ 0xFFF
    ∧ (withV [(0, 0), (1, 0)] { nextOf (exec (.stRegs 1) storing) start with i := 0x202 }).i = storing.i
    ∧ (nextOf (exec (.ldRegs 1)
      (withV [(0, 0), (1, 0)] { nextOf (exec (.stRegs 1) storing) start
      with i := 0x202 })) start).getV 1 = 0x2A := by decide +kernel

/-- `StoresAreFetchedByTheNextStep`: FX55 on both bytes (V198), and on the low one alone with X = 0. -/
theorem test_witness_store_fetch :
    executed (storing.withFetchWord 16 0xF155) = some (.stRegs 1)
    ∧ blockAddr storing 0 = 0x202 ∧ blockAddr storing 1 = 0x203
    ∧ gives 0xF155 storing (fun t => t.pc == 0x202 && fetchedWord t == 0x6A2A) = true
    ∧ gives 0xF055 { storing with i := 0x203 } (fun t => t.pc == 0x202
      && fetchedWord t == 0x006A) = true := by decide +kernel

/-- `StoresAreFetchedByTheNextStep`: FX33 at the last two bytes of memory, the ones digit dropped
(V185). -/
theorem test_witness_digits_fetch :
    executed ({ withV [(5, 234)] start with pc := 0xFFC, i := 0xFFE }.withFetchWord 16 0xF533)
      = some (.ldB 5)
    ∧ gives 0xF533 { withV [(5, 234)] start with pc := 0xFFC, i := 0xFFE } (fun t =>
      t.pc == 0xFFE && fetchedWord t == 0x0203) = true := by decide +kernel

/-- `StepsKeepMemoryCanonical`: a state with a listed byte, and a step that stores. -/
theorem test_witness_memory_canonical :
    MemoryCanonical known ∧ gives 0xF155 storing (fun t => t.mem != storing.mem) = true := by
  constructor
  · unfold MemoryCanonical; decide +kernel
  · decide +kernel

/-- `StepsKeepTheStackBounded`: the bound is reached (V43). -/
theorem test_witness_stack_bounded :
    (∀ k, ({ start with pc := 0xFFF }.slot k).toNat ≤ 0x1001)
    ∧ gives 0x2F00 { start with pc := 0xFFF } (fun t => t.slot 0 == 0x1001) = true := by decide +kernel

/-- `SelfJumpNeverEnds` (V21); a jump elsewhere is none. -/
theorem test_witness_self_jump :
    atSelfJump (start.withFetchWord 16 0x1200) = true
    ∧ atSelfJump (start.withFetchWord 16 0x1202) = false := by decide +kernel

/-- R263: a run to its end stops at once at a self-jump, and finds none in one step of empty memory. -/
theorem test_end_of_run :
    (runTo (.selfJump 0) (start.withFetchWord 16 0x1200)).isSome = true
    ∧ (runTo (.selfJump 1) start).isSome = false := by decide +kernel

end Sys2Proof.Tests
end

section
/-!
The statements of spec/20_memory.md: what memory holds after reset (R46), and the two bounds-checked
accesses (R41, R42), each first by its two cases, in range and out of range.
-/

namespace Sys2Proof.Machine

/-! ## Memory after reset -/

/-- Above the glyph table reset leaves zeros (R30). -/
theorem Memory.resetByte_above {a : Nat} (h : Config.glyphBytes ≤ a) : Memory.resetByte a = 0 :=
  List.getD_eq_default _ _ h

/-- After either reset every address reads as memory's contents at reset (R30, R46, R250). -/
theorem byteAt_of_reset {s : State} (h : s = State.reset ∨ ∃ u, s = hostReset u) (a : Nat) :
    s.byteAt a = Memory.resetByte a := by
  have hmem : s.mem = [] := by
    obtain rfl | ⟨u, rfl⟩ := h <;> rfl
  obtain ha | ha := Nat.lt_or_ge 0xFFF a
  · have hglyphs : Config.glyphBytes ≤ a := Nat.le_trans (by decide) ha
    rw [byteAt_outOfRange s ha, Memory.resetByte_above hglyphs]
  · rw [byteAt_inRange s ha, hmem, Memory.read]

/-- Glyphs are four pixels wide: the low nibble of every byte reset leaves is 0 (R46). -/
theorem Memory.resetByte_lowNibble (a : Nat) : (Memory.resetByte a).toNat % 16 = 0 := by
  obtain ha | ha := Nat.lt_or_ge a Config.glyphBytes
  · have hglyphs : ∀ k < Config.glyphBytes, (Memory.resetByte k).toNat % 16 = 0 := by decide
    exact hglyphs a ha
  · rw [Memory.resetByte_above ha]; rfl

/-! ## The glyph address -/

/-- `FX29` puts the glyph address in I and goes to the next instruction (R125). -/
theorem exec_ldF (x : Reg) (s : State) :
    exec (.ldF x) s
      = .next (nextPC (setI (BitVec.ofNat 16 ((s.getV x).toNat * Config.glyphStride)) s)) := rfl

/-- The glyph address of any byte fits in 16 bits, so the product is exact (R46, R125). -/
theorem toNat_glyphAddr (b : Byte) :
    (BitVec.ofNat 16 (b.toNat * Config.glyphStride)).toNat = 5 * b.toNat := by
  have hfits : b.toNat * 5 < 2 ^ 16 := by have := b.isLt; omega
  rw [BitVec.toNat_ofNat, Nat.mod_eq_of_lt hfits, Nat.mul_comm]

/-- Settles O1: both resets leave the model's glyph table, which is compared with the statement's rows
byte by byte; `FX29` multiplies without overflow. -/
theorem glyphTableAfterReset : Obligations.GlyphTableAfterReset := by
  refine ⟨fun s hs d hd j hj => ?_, fun x s => ⟨_, exec_ldF x s, toNat_glyphAddr (s.getV x)⟩⟩
  rw [byteAt_of_reset hs]
  refine ⟨?_, Memory.resetByte_lowNibble _⟩
  revert d j
  decide

/-! ## Accesses in range and out of range -/

theorem inRange_iff {a : Nat} : inRange a = true ↔ a ≤ 0xFFF := by
  rw [inRange, decide_eq_true_iff]; exact Nat.lt_succ_iff

theorem not_inRange {a : Nat} (h : 0xFFF < a) : ¬inRange a = true :=
  fun hin => Nat.not_lt_of_le (inRange_iff.mp hin) h

/-- An access above 0xFFF raises AddressOutOfRange (R41, R42). -/
theorem checkAddr_of_outOfRange {a : Nat} (h : 0xFFF < a) (s : State) :
    checkAddr a s = raiseAddrOor s :=
  if_neg (not_inRange h)

theorem memWrite_of_inRange {a : Nat} (h : a ≤ 0xFFF) (x : Byte) (s : State) :
    memWrite a x s = { s with mem := s.mem.write a x } :=
  if_pos (inRange_iff.mpr h)

/-- A write above 0xFFF only raises AddressOutOfRange (R42). -/
theorem memWrite_of_outOfRange {a : Nat} (h : 0xFFF < a) (x : Byte) (s : State) :
    memWrite a x s = raiseAddrOor s :=
  if_neg (not_inRange h)

theorem raiseAddrOor_frame (s : State) : OnlyChanges [.ev] s (raiseAddrOor s) := by
  apply OnlyChanges.of_fields <;> simp

/-- A write in range raises no event. -/
theorem memWrite_frame_of_inRange {a : Nat} (h : a ≤ 0xFFF) (x : Byte) (s : State) :
    OnlyChanges [.mem] s (memWrite a x s) := by
  rw [memWrite_of_inRange h]
  apply OnlyChanges.of_fields <;> simp

/-- Settles O3: a read answers `byteAt` and leaves what `checkAddr` leaves, each by the two cases of the
address. -/
theorem readIsBoundsChecked : Obligations.ReadIsBoundsChecked := by
  intro a s
  refine ⟨checkAddr a s, ?_, checkAddr_frame a s, ?_⟩
  · rw [memRead_eq]
    split
    case isTrue h => rw [byteAt_outOfRange s h]
    case isFalse h => rw [byteAt_inRange s (Nat.le_of_not_lt h)]
  · split
    case isTrue h => rw [checkAddr_of_outOfRange h, raiseAddrOor_ev]
    case isFalse h => rw [checkAddr_of_inRange (Nat.le_of_not_lt h)]

/-- Settles O4: out of range a write is the event alone, in range it is the store alone. -/
theorem writeIsBoundsChecked : Obligations.WriteIsBoundsChecked := by
  intro a x s
  split
  case isTrue h =>
    rw [memWrite_of_outOfRange h]
    exact ⟨raiseAddrOor_frame s, raiseAddrOor_ev s⟩
  case isFalse h =>
    have ha : a ≤ 0xFFF := Nat.le_of_not_lt h
    refine ⟨?_, fun b hb => ?_, memWrite_frame_of_inRange ha x s⟩
    · rw [byteAt_memWrite, if_pos ⟨rfl, ha⟩]
    · rw [byteAt_memWrite, if_neg fun hab => hb hab.1]

end Sys2Proof.Machine
end

section
/-!
The two jumps of spec/41_flow.md: JP (R101) and JP_V0 (R107). Each is a row of the opcode map that fixes
the top nibble alone, and an instruction that ends in `jumpTo`.
-/

namespace Sys2Proof.Machine

/-- An immediate operand keeps its value as an address (R101, R107). -/
theorem toNat_immWord (nnn : Imm12) : (immWord nnn).toNat = nnn.toNat :=
  BitVec.toNat_setWidth_of_le (by decide)

/-- The largest jump target, 0xFFF + 0xFF, fits in PC, so the sum is exact (R107). -/
theorem toNat_immWord_add_byte (nnn : Imm12) (b : Byte) :
    (immWord nnn + b.zeroExtend 16).toNat = nnn.toNat + b.toNat := by
  have hfits : nnn.toNat + b.toNat < 2 ^ 16 := by have := nnn.isLt; have := b.isLt; omega
  rw [BitVec.toNat_add, toNat_immWord, BitVec.toNat_setWidth_of_le (by decide),
    Nat.mod_eq_of_lt hfits]

/-- `1NNN` jumps to NNN (R101). -/
theorem exec_jp (nnn : Imm12) (s : State) :
    exec (.jp nnn) s = .next (jumpTo (immWord nnn) s) := rfl

/-- `BNNN` jumps to NNN + V[0] (R107). -/
theorem exec_jpV0 (nnn : Imm12) (s : State) :
    exec (.jpV0 nnn) s = .next (jumpTo (immWord nnn + (s.getV 0).zeroExtend 16) s) := rfl

/-- Settles O23: JP's row selects by the top nibble alone, and JP is `jumpTo` at the operand. -/
theorem jpLoadsPc : Obligations.JpLoadsPc := by
  refine ⟨fun op hop => ?_, fun nnn s => ⟨_, exec_jp nnn s, ?_, jumpTo_frame _ s⟩⟩
  · have hrow : ⟨0xF000, 0x1000, fun op => .jp (nnnOf op)⟩ ∈ opcodeMap := by
      simp [opcodeMap, rowsMain]
    exact decodeWord_of_row hrow (beq_iff_eq.mpr hop)
  · rw [jumpTo_pc, toNat_immWord]

/-- Settles O24: JP_V0's row selects by the top nibble alone, and the target it jumps to is an exact
sum. -/
theorem jpV0AddsV0 : Obligations.JpV0AddsV0 := by
  refine ⟨fun op hop => ?_, fun nnn s => ⟨_, exec_jpV0 nnn s, ?_, jumpTo_frame _ s⟩⟩
  · have hrow : ⟨0xF000, 0xB000, fun op => .jpV0 (nnnOf op)⟩ ∈ opcodeMap := by
      simp [opcodeMap, rowsMain]
    exact decodeWord_of_row hrow (beq_iff_eq.mpr hop)
  · rw [jumpTo_pc, toNat_immWord_add_byte]

end Sys2Proof.Machine
end

section
/-!
Encoding and decoding (spec/30_encoding.md): each format's operands are read back from the word they are put
in (R61, R62), so the decoder undoes the encoder (R71); and the operands of a word, put back beside its row's
match value, give the word (R65).
-/

namespace Sys2Proof

/-! ## Operands read back from an encoded word -/

theorem xOf_encX {v : Word} (hv : v.extractLsb' 8 4 = 0) (x : Reg) : xOf (encX v x) = x := by
  obtain ⟨-, -, -, hx, -⟩ := placeX_fields x
  simp [xOf, encX, extract_or, hv, hx]

theorem xOf_encXY {v : Word} (hv : v.extractLsb' 8 4 = 0) (x y : Reg) : xOf (encXY v x y) = x := by
  obtain ⟨-, -, -, hx, -⟩ := placeX_fields x
  obtain ⟨-, -, hy, -⟩ := placeY_fields y
  simp [xOf, encXY, extract_or, hv, hx, hy]

theorem yOf_encXY {v : Word} (hv : v.extractLsb' 4 4 = 0) (x y : Reg) : yOf (encXY v x y) = y := by
  obtain ⟨-, -, -, -, hx, -⟩ := placeX_fields x
  obtain ⟨-, -, -, hy, -⟩ := placeY_fields y
  simp [yOf, encXY, extract_or, hv, hx, hy]

theorem nOf_encXY {v : Word} (hv : v.extractLsb' 0 4 = 0) (x y : Reg) : nOf (encXY v x y) = 0 := by
  obtain ⟨-, -, -, -, -, hx, -⟩ := placeX_fields x
  obtain ⟨-, -, -, -, hy⟩ := placeY_fields y
  simp [nOf, encXY, extract_or, hv, hx, hy]

theorem xOf_encXNN {v : Word} (hv : v.extractLsb' 8 4 = 0) (x : Reg) (nn : Byte) :
    xOf (encXNN v x nn) = x := by
  obtain ⟨-, -, -, hx, -⟩ := placeX_fields x
  obtain ⟨-, -, hnn⟩ := placeImm_fields (by decide) nn
  simp only [xOf, encXNN, extract_or, hv, hx, hnn (by decide)]
  simp

theorem nnOf_encXNN {v : Word} (hv : v.extractLsb' 0 8 = 0) (x : Reg) (nn : Byte) :
    nnOf (encXNN v x nn) = nn := by
  obtain ⟨-, -, -, -, -, -, hx⟩ := placeX_fields x
  obtain ⟨-, hnn, -⟩ := placeImm_fields (by decide) nn
  simp only [nnOf, encXNN, extract_or, hv, hx, hnn]
  simp

theorem nnnOf_encNNN {v : Word} (hv : v.extractLsb' 0 12 = 0) (nnn : Imm12) :
    nnnOf (encNNN v nnn) = nnn := by
  obtain ⟨-, hnnn, -⟩ := placeImm_fields (by decide) nnn
  simp only [nnnOf, encNNN, extract_or, hv, hnnn]
  simp

/-- The N field beside X and Y changes neither, and is read back where they leave 0 (R62). -/
theorem fields_encXYN {v : Word}
    (hv : v.extractLsb' 8 4 = 0 ∧ v.extractLsb' 4 4 = 0 ∧ v.extractLsb' 0 4 = 0) (x y : Reg)
    (n : Nibble) :
    xOf (encXY v x y ||| n.zeroExtend 16) = x ∧ yOf (encXY v x y ||| n.zeroExtend 16) = y
      ∧ nOf (encXY v x y ||| n.zeroExtend 16) = n := by
  obtain ⟨hvx, hvy, hvn⟩ := hv
  obtain ⟨-, hx, hy, hn⟩ := placeN_fields n
  have hX := xOf_encXY hvx x y
  have hY := yOf_encXY hvy x y
  have hN := nOf_encXY hvn x y
  rw [xOf] at hX; rw [yOf] at hY; rw [nOf] at hN
  simp only [xOf, yOf, nOf, extract_or, hx, hy, hn, hN]
  exact ⟨by simpa using hX, by simpa using hY, by simp⟩

/-! ## The decoder undoes the encoder, format by format -/

theorem decodeWord_encX {v : Word} {f : Reg → Instr}
    (hrow : ⟨0xF0FF, v, fun op => f (xOf op)⟩ ∈ opcodeMap)
    (hv : v &&& 0xF0FF = v ∧ v.extractLsb' 8 4 = 0) (x : Reg) :
    decodeWord (encX v x) = some (f x) := by
  have hsel := Laws.RowMatches.encX_and x hv.1
  rw [decodeWord_of_row hrow (beq_iff_eq.mpr hsel)]
  simp only [xOf_encX hv.2]

theorem decodeWord_encXY {v : Word} {f : Reg → Reg → Instr}
    (hrow : ⟨0xF00F, v, fun op => f (xOf op) (yOf op)⟩ ∈ opcodeMap)
    (hv : v &&& 0xF00F = v ∧ v.extractLsb' 8 4 = 0 ∧ v.extractLsb' 4 4 = 0) (x y : Reg) :
    decodeWord (encXY v x y) = some (f x y) := by
  obtain ⟨hmask, hx, hy⟩ := hv
  have hsel := Laws.RowMatches.encXY_and x y hmask
  rw [decodeWord_of_row hrow (beq_iff_eq.mpr hsel)]
  simp only [xOf_encXY hx, yOf_encXY hy]

theorem decodeWord_encXNN {v : Word} {f : Reg → Byte → Instr}
    (hrow : ⟨0xF000, v, fun op => f (xOf op) (nnOf op)⟩ ∈ opcodeMap)
    (hv : v &&& 0xF000 = v ∧ v.extractLsb' 8 4 = 0 ∧ v.extractLsb' 0 8 = 0) (x : Reg) (nn : Byte) :
    decodeWord (encXNN v x nn) = some (f x nn) := by
  obtain ⟨hmask, hx, hnn⟩ := hv
  have hsel := Laws.RowMatches.encXNN_and x nn hmask
  rw [decodeWord_of_row hrow (beq_iff_eq.mpr hsel)]
  simp only [xOf_encXNN hx, nnOf_encXNN hnn]

theorem decodeWord_encNNN {v : Word} {f : Imm12 → Instr}
    (hrow : ⟨0xF000, v, fun op => f (nnnOf op)⟩ ∈ opcodeMap)
    (hv : v &&& 0xF000 = v ∧ v.extractLsb' 0 12 = 0) (nnn : Imm12) :
    decodeWord (encNNN v nnn) = some (f nnn) := by
  have hsel := Laws.RowMatches.encNNN_and nnn hv.1
  rw [decodeWord_of_row hrow (beq_iff_eq.mpr hsel)]
  simp only [nnnOf_encNNN hv.2]

theorem decodeWord_encXYN {v : Word} {f : Reg → Reg → Nibble → Instr}
    (hrow : ⟨0xF000, v, fun op => f (xOf op) (yOf op) (nOf op)⟩ ∈ opcodeMap)
    (hmask : v &&& 0xF000 = v)
    (hv : v.extractLsb' 8 4 = 0 ∧ v.extractLsb' 4 4 = 0 ∧ v.extractLsb' 0 4 = 0) (x y : Reg)
    (n : Nibble) :
    decodeWord (encXY v x y ||| n.zeroExtend 16) = some (f x y n) := by
  obtain ⟨hx, hy, hn⟩ := fields_encXYN hv x y n
  have hsel := Laws.RowMatches.encXYN_and x y n hmask
  rw [decodeWord_of_row hrow (beq_iff_eq.mpr hsel)]
  simp only [hx, hy, hn]

/-- The decoder undoes the encoder on every instruction (R65, R71). -/
@[simp] theorem decodeWord_encodeWord (i : Instr) : decodeWord (encodeWord i) = some i := by
  cases i with
  | cls | ret => decide
  | jp nnn | call nnn | ldI nnn | jpV0 nnn =>
    exact decodeWord_encNNN (by simp [opcodeMap, rowsMain]) (by decide) nnn
  | seImm x nn | sneImm x nn | ldImm x nn | addImm x nn | rnd x nn =>
    exact decodeWord_encXNN (by simp [opcodeMap, rowsMain]) (by decide) x nn
  | seReg x y | sneReg x y =>
    exact decodeWord_encXY (by simp [opcodeMap, rowsMain]) (by decide) x y
  | mov x y | or x y | and x y | xor x y | add x y | sub x y | shr x y | subn x y | shl x y =>
    exact decodeWord_encXY (by simp [opcodeMap, rowsAlu]) (by decide) x y
  | drw x y n =>
    exact decodeWord_encXYN (by simp [opcodeMap, rowsMain]) (by decide) (by decide) x y n
  | skp x | sknp x | ldVxDt x | ldVxK x | ldDtVx x | ldStVx x | addI x | ldF x | ldB x | stRegs x
  | ldRegs x =>
    exact decodeWord_encX (by simp [opcodeMap, rowsX]) (by decide) x

/-- Settles O7: the two encoded bytes make up the encoded word again, which decodes to the instruction. -/
theorem decodeOfEncodeIsTheInstruction : Obligations.DecodeOfEncodeIsTheInstruction := by
  intro i rest _
  simp only [encode, List.cons_append, List.nil_append, decode, wordOfBytes_high_low,
    decodeWord_encodeWord]

end Sys2Proof
end

section
/-!
spec/30_encoding.md sections 3 and 4: a word is its row's match value with its operands beside it (R65), the
words that no row selects (R67), and RXC's two-level dispatch (R64).
-/

namespace Sys2Proof

/-! ## Fields and masks -/

/-- The mask has its ones exactly in the n bits from bit k on. -/
def IsFieldMask (m : Word) (k n : Nat) : Prop :=
  ∀ j < 16, m.getLsbD j = (decide (k ≤ j) && decide (j < k + n))

/-- A field of a word, put where it was taken from, is the word masked to the field (R61). -/
theorem placeField_eq_and (op : Word) {m : Word} {k n : Nat} (hm : IsFieldMask m k n) :
    (op.extractLsb' k n).zeroExtend 16 <<< k = op &&& m := by
  apply BitVec.eq_of_getLsbD_eq
  intro j hj
  rw [BitVec.getLsbD_and, hm j hj]
  by_cases hlo : k ≤ j
  · have hoff : k + (j - k) = j := Nat.add_sub_cancel' hlo
    have hwidth : j - k < n ↔ j < k + n := by omega
    simp [hj, hlo, hoff, hwidth, Bool.and_comm]
  · simp [hlo, Nat.lt_of_not_le hlo]

/-- Two words agree under a field's mask exactly when the field is the same. -/
theorem and_eq_and_iff_field {m : Word} {k n : Nat} (hm : IsFieldMask m k n) (hk : k + n ≤ 16)
    (op v : Word) : op &&& m = v &&& m ↔ op.extractLsb' k n = v.extractLsb' k n := by
  constructor
  · intro h
    apply BitVec.eq_of_getLsbD_eq
    intro j hj
    have hbit := congrArg (·.getLsbD (k + j)) h
    simpa [hm (k + j) (by omega), hj] using hbit
  · intro h
    rw [← placeField_eq_and op hm, ← placeField_eq_and v hm, h]

theorem and_or_and (a m p : Word) : (a &&& m) ||| (a &&& p) = a &&& (m ||| p) := by
  rw [BitVec.and_comm a m, BitVec.and_comm a p, ← or_and, BitVec.and_comm]

/-- Two words agree under a mask exactly when they agree under both of its parts. -/
theorem and_or_eq_iff (op v m p : Word) :
    op &&& (m ||| p) = v &&& (m ||| p) ↔ op &&& m = v &&& m ∧ op &&& p = v &&& p := by
  have left : ∀ a : Word, a &&& (m ||| p) &&& m = a &&& m := fun a => by
    apply BitVec.eq_of_getLsbD_eq; intro j _; simp; cases m.getLsbD j <;> simp
  have right : ∀ a : Word, a &&& (m ||| p) &&& p = a &&& p := fun a => by
    apply BitVec.eq_of_getLsbD_eq; intro j _; simp; cases p.getLsbD j <;> simp
  constructor
  · intro h
    exact ⟨by rw [← left op, ← left v, h], by rw [← right op, ← right v, h]⟩
  · rintro ⟨hm, hp⟩
    rw [← and_or_and, ← and_or_and, hm, hp]

theorem and_allBits (a : Word) : a &&& 0xFFFF = a := BitVec.and_allOnes

/-! ## A word is its masked part with its fields beside it -/

theorem placeX_xOf (op : Word) : placeX (xOf op) = op &&& 0x0F00 := by
  have hm : IsFieldMask 0x0F00 8 4 := by unfold IsFieldMask; decide
  rw [placeX, xOf, BitVec.val_toFin, BitVec.ofNat_toNat]
  exact placeField_eq_and op hm

theorem placeY_yOf (op : Word) : placeY (yOf op) = op &&& 0x00F0 := by
  have hm : IsFieldMask 0x00F0 4 4 := by unfold IsFieldMask; decide
  rw [placeY, yOf, BitVec.val_toFin, BitVec.ofNat_toNat]
  exact placeField_eq_and op hm

theorem zeroExtend_nOf (op : Word) : (nOf op).zeroExtend 16 = op &&& 0x000F := by
  have hm : IsFieldMask 0x000F 0 4 := by unfold IsFieldMask; decide
  simpa [nOf] using placeField_eq_and op hm

theorem zeroExtend_nnOf (op : Word) : (nnOf op).zeroExtend 16 = op &&& 0x00FF := by
  have hm : IsFieldMask 0x00FF 0 8 := by unfold IsFieldMask; decide
  simpa [nnOf] using placeField_eq_and op hm

theorem zeroExtend_nnnOf (op : Word) : (nnnOf op).zeroExtend 16 = op &&& 0x0FFF := by
  have hm : IsFieldMask 0x0FFF 0 12 := by unfold IsFieldMask; decide
  simpa [nnnOf] using placeField_eq_and op hm

theorem encX_fields {op v : Word} (h : op &&& 0xF0FF = v) : encX v (xOf op) = op := by
  rw [encX, placeX_xOf, ← h, and_or_and]; exact and_allBits op

theorem encXY_fields {op v : Word} (h : op &&& 0xF00F = v) : encXY v (xOf op) (yOf op) = op := by
  rw [encXY, placeX_xOf, placeY_yOf, ← h, and_or_and, and_or_and]; exact and_allBits op

theorem encXNN_fields {op v : Word} (h : op &&& 0xF000 = v) : encXNN v (xOf op) (nnOf op) = op := by
  rw [encXNN, placeX_xOf, zeroExtend_nnOf, ← h, and_or_and, and_or_and]; exact and_allBits op

theorem encNNN_fields {op v : Word} (h : op &&& 0xF000 = v) : encNNN v (nnnOf op) = op := by
  rw [encNNN, zeroExtend_nnnOf, ← h, and_or_and]; exact and_allBits op

theorem encXYN_fields {op v : Word} (h : op &&& 0xF000 = v) :
    encXY v (xOf op) (yOf op) ||| (nOf op).zeroExtend 16 = op := by
  rw [encXY, placeX_xOf, placeY_yOf, zeroExtend_nOf, ← h, and_or_and, and_or_and, and_or_and]
  exact and_allBits op

/-- Every row of the opcode map has the property when the 34 of them have it. -/
theorem forall_mem_opcodeMap {p : Row → Prop} (hmain : ∀ r ∈ rowsMain, p r) (halu : ∀ r ∈ rowsAlu, p r)
    (hx : ∀ r ∈ rowsX, p r) : ∀ r ∈ opcodeMap, p r :=
  List.forall_mem_append.mpr ⟨List.forall_mem_append.mpr ⟨hmain, halu⟩, hx⟩

/-- What a row builds out of a word it selects encodes to that word (R65). -/
theorem encodeWord_build (op : Word) :
    ∀ r ∈ opcodeMap, op &&& r.mask = r.value → encodeWord (r.build op) = op := by
  apply forall_mem_opcodeMap
  · simp only [rowsMain, List.forall_mem_cons, List.not_mem_nil, false_implies, implies_true, and_true]
    have hexact : ∀ {v : Word}, op &&& 0xFFFF = v → v = op := fun h => h.symm.trans (and_allBits op)
    exact ⟨hexact, hexact, encNNN_fields, encNNN_fields, encXNN_fields, encXNN_fields, encXY_fields,
      encXNN_fields, encXNN_fields, encXY_fields, encNNN_fields, encNNN_fields, encXNN_fields,
      encXYN_fields⟩
  · simp only [rowsAlu, List.forall_mem_cons, List.not_mem_nil, false_implies, implies_true, and_true]
    refine ⟨?_, ?_, ?_, ?_, ?_, ?_, ?_, ?_, ?_⟩ <;> exact encXY_fields
  · simp only [rowsX, List.forall_mem_cons, List.not_mem_nil, false_implies, implies_true, and_true]
    refine ⟨?_, ?_, ?_, ?_, ?_, ?_, ?_, ?_, ?_, ?_, ?_⟩ <;> exact encX_fields

/-- Settles O8: the word is the one the selected row rebuilds from its match value and the operands. -/
theorem encodeOfDecodeIsTheWord : Obligations.EncodeOfDecodeIsTheWord := by
  intro op i h
  obtain ⟨r, hr, hsel, rfl⟩ := row_of_decodeWord h
  exact encodeWord_build op r hr (beq_iff_eq.mp hsel)

/-! ## Selection by family and secondary key (R64, R66) -/

/-- A word meets a row whose mask is two fields exactly when it has the match value's two fields. -/
theorem and_eq_iff_fields {m p : Word} {k n k' n' : Nat} (hm : IsFieldMask m k n) (hk : k + n ≤ 16)
    (hp : IsFieldMask p k' n') (hk' : k' + n' ≤ 16) {v : Word} (hv : v &&& (m ||| p) = v) (op : Word) :
    op &&& (m ||| p) = v
      ↔ op.extractLsb' k n = v.extractLsb' k n ∧ op.extractLsb' k' n' = v.extractLsb' k' n' := by
  rw [← and_eq_and_iff_field hm hk, ← and_eq_and_iff_field hp hk', ← and_or_eq_iff, hv]

theorem familyMask : IsFieldMask 0xF000 12 4 := by unfold IsFieldMask; decide

/-- Families 1 to 4, 6, 7 and A to D: the family alone selects. -/
theorem selects_family_iff {v : Word} (hv : v &&& 0xF000 = v) (op : Word) :
    op &&& 0xF000 = v ↔ familyOf op = familyOf v := by
  rw [familyOf, familyOf, ← and_eq_and_iff_field familyMask (by decide), hv]

/-- Families 5, 8 and 9: the family and N select. -/
theorem selects_n_iff {v : Word} (hv : v &&& 0xF00F = v) (op : Word) :
    op &&& 0xF00F = v ↔ familyOf op = familyOf v ∧ nOf op = nOf v := by
  have hn : IsFieldMask 0x000F 0 4 := by unfold IsFieldMask; decide
  exact and_eq_iff_fields familyMask (by decide) hn (by decide) hv op

/-- Families E and F: the family and NN select. -/
theorem selects_nn_iff {v : Word} (hv : v &&& 0xF0FF = v) (op : Word) :
    op &&& 0xF0FF = v ↔ familyOf op = familyOf v ∧ nnOf op = nnOf v := by
  have hnn : IsFieldMask 0x00FF 0 8 := by unfold IsFieldMask; decide
  exact and_eq_iff_fields familyMask (by decide) hnn (by decide) hv op

/-- Family 0: the family and NNN, which is the whole word, select (R66). -/
theorem selects_nnn_iff (v op : Word) :
    op &&& 0xFFFF = v ↔ familyOf op = familyOf v ∧ nnnOf op = nnnOf v := by
  have hnnn : IsFieldMask 0x0FFF 0 12 := by unfold IsFieldMask; decide
  exact and_eq_iff_fields familyMask (by decide) hnnn (by decide) (and_allBits v) op

/-- The two-level dispatch selects as the row does that the word matches (R64, R83). -/
theorem dispatchWord_of_row (op : Word) :
    ∀ r ∈ opcodeMap, op &&& r.mask = r.value → dispatchWord op = some (r.build op) := by
  apply forall_mem_opcodeMap
  · simp only [rowsMain, List.forall_mem_cons, List.not_mem_nil, false_implies, implies_true, and_true]
    have hexact : ∀ {v : Word}, op &&& 0xFFFF = v → op = v := fun h => (and_allBits op).symm.trans h
    refine ⟨fun h => ?cls, fun h => ?ret, fun h => ?_, fun h => ?_, fun h => ?_, fun h => ?_,
      fun h => ?seReg, fun h => ?_, fun h => ?_, fun h => ?sneReg, fun h => ?_, fun h => ?_,
      fun h => ?_, fun h => ?_⟩
    case cls | ret => rw [hexact h]; rfl
    case seReg | sneReg =>
      obtain ⟨hfamily, hn⟩ := (selects_n_iff (by decide) op).mp h
      rw [dispatchWord, hfamily, hn]; rfl
    all_goals
      have hfamily := (selects_family_iff (by decide) op).mp h
      rw [dispatchWord, hfamily]; rfl
  · simp only [rowsAlu, List.forall_mem_cons, List.not_mem_nil, false_implies, implies_true, and_true]
    refine ⟨?_, ?_, ?_, ?_, ?_, ?_, ?_, ?_, ?_⟩
    all_goals
      intro h
      obtain ⟨hfamily, hn⟩ := (selects_n_iff (by decide) op).mp h
      rw [dispatchWord, hfamily, hn]; rfl
  · simp only [rowsX, List.forall_mem_cons, List.not_mem_nil, false_implies, implies_true, and_true]
    refine ⟨?_, ?_, ?_, ?_, ?_, ?_, ?_, ?_, ?_, ?_, ?_⟩
    all_goals
      intro h
      obtain ⟨hfamily, hnn⟩ := (selects_nn_iff (by decide) op).mp h
      rw [dispatchWord, hfamily, hnn]; rfl

theorem dispatchWord_of_decodeWord {op : Word} {i : Instr} (h : decodeWord op = some i) :
    dispatchWord op = some i := by
  obtain ⟨r, hr, hsel, rfl⟩ := row_of_decodeWord h
  exact dispatchWord_of_row op r hr (beq_iff_eq.mp hsel)

/-! ## The unknown words (R67) -/

/-- The table of R67. -/
def ListedUnknown (op : Word) : Prop :=
  (familyOf op = 0x0 ∧ nnnOf op ≠ 0x0E0 ∧ nnnOf op ≠ 0x0EE)
    ∨ (familyOf op = 0x5 ∧ nOf op ≠ 0) ∨ (familyOf op = 0x9 ∧ nOf op ≠ 0)
    ∨ (familyOf op = 0x8 ∧ nOf op ∈ [0x8, 0x9, 0xA, 0xB, 0xC, 0xD, 0xF])
    ∨ (familyOf op = 0xE ∧ nnOf op ∉ [0x9E, 0xA1])
    ∨ (familyOf op = 0xF ∧ nnOf op ∉ [0x07, 0x0A, 0x15, 0x18, 0x1E, 0x29, 0x33, 0x55, 0x65])

/-- A word that no row selects is in the table: by the 34 rows' families and secondary keys. Of the families with
unknown words (0, 5, 8, 9, E, F) only 8 is listed by its keys, where the others are listed by the keys left out. -/
theorem listedUnknown_of_no_row {op : Word} (h : ∀ r ∈ opcodeMap, op &&& r.mask ≠ r.value) :
    ListedUnknown op := by
  simp only [opcodeMap, rowsMain, rowsAlu, rowsX, List.cons_append, List.nil_append,
    List.forall_mem_cons, ne_eq] at h
  simp (decide := true) only [selects_family_iff, selects_n_iff, selects_nn_iff, selects_nnn_iff] at h
  rw [ListedUnknown]
  generalize familyOf op = f at h ⊢
  generalize nOf op = n at h ⊢
  generalize nnOf op = nn at h ⊢
  generalize nnnOf op = nnn at h ⊢
  obtain ⟨f⟩ := f
  fin_cases f <;> simp [familyOf, nOf, nnOf, nnnOf] at h ⊢
  · exact h
  · exact h
  · revert n; decide
  all_goals exact h

/-- With X = 0 the NNN field is the NN field (R61). -/
theorem nnnOf_of_xOf_zero {op : Word} (hx : xOf op = 0) : (nnnOf op).toNat = (nnOf op).toNat := by
  have hval : op.toNat / 256 % 16 = 0 := by
    simpa [xOf, Nat.shiftRight_eq_div_pow] using congrArg Fin.val hx
  simp only [nnnOf, nnOf, BitVec.extractLsb'_toNat, Nat.shiftRight_zero]
  omega

/-- A listed word has no secondary key that the dispatch knows. -/
theorem dispatchWord_of_listedUnknown {op : Word} (h : ListedUnknown op) : dispatchWord op = none := by
  obtain ⟨hf, hnnn⟩ | ⟨hf, hn⟩ | ⟨hf, hn⟩ | ⟨hf, hn⟩ | ⟨hf, hnn⟩ | ⟨hf, hnn⟩ := h <;>
    simp [dispatchWord, hf]
  · intro hx
    simp only [ne_eq, ← BitVec.toNat_inj, nnnOf_of_xOf_zero hx] at hnnn
    split <;> rename_i hkey <;> simp [hkey] at hnnn ⊢
  · exact hn
  · exact hn
  · generalize nOf op = n at hn
    split <;> rename_i hkey <;> simp [← BitVec.toNat_inj, hkey] at hn ⊢
  · split <;> rename_i hkey <;> simp [← BitVec.toNat_inj, hkey] at hnn ⊢
  · split <;> rename_i hkey <;> simp [← BitVec.toNat_inj, hkey] at hnn ⊢

/-- Settles O10: a word no row selects is in the table, and no word of the table is selected. -/
theorem unknownWordsAreTheListed : Obligations.UnknownWordsAreTheListed := by
  intro op
  constructor
  · intro hnone
    apply listedUnknown_of_no_row
    intro r hr hsel
    rw [decodeWord_of_row hr (beq_iff_eq.mpr hsel)] at hnone
    cases hnone
  · intro hlisted
    cases hd : decodeWord op with
    | none => rfl
    | some i =>
      have hdispatch := dispatchWord_of_decodeWord hd
      rw [dispatchWord_of_listedUnknown hlisted] at hdispatch
      cases hdispatch

/-- Settles O9: on a selected word both answer what its row builds, on the others both answer none. -/
theorem tableAndDispatchSelectTheSame : Obligations.TableAndDispatchSelectTheSame := by
  intro op
  cases hd : decodeWord op with
  | none => exact (dispatchWord_of_listedUnknown ((unknownWordsAreTheListed op).mp hd)).symm
  | some i => exact (dispatchWord_of_decodeWord hd).symm

/-- Settles O11: the listed words and bytes, evaluated. -/
theorem writtenOutWordsDecode : Obligations.WrittenOutWordsDecode := by
  unfold Obligations.WrittenOutWordsDecode
  decide

end Sys2Proof
end

section
/-!
The layer the remaining proofs stand on: what each instruction answers, what its loops leave behind
(spec/46_memory_ops.md, spec/44_display.md), and from them that an instruction changes only its columns of
R31.
-/

namespace Sys2Proof.Machine

/-! ## What each instruction answers -/

@[simp] theorem exec_cls (s : State) : exec .cls s = .next (nextPC { s with fb := clearFrame }) := rfl

@[simp] theorem exec_ret (s : State) : exec .ret s = .next (jumpTo (pop s).1 (pop s).2) := rfl

@[simp] theorem exec_call (nnn : Imm12) (s : State) :
    exec (.call nnn) s = .next (jumpTo (immWord nnn) (push (s.pc + 2) s)) := rfl

@[simp] theorem exec_seImm (x : Reg) (nn : Byte) (s : State) :
    exec (.seImm x nn) s = .next (skipIf (s.getV x == nn) s) := rfl

@[simp] theorem exec_sneImm (x : Reg) (nn : Byte) (s : State) :
    exec (.sneImm x nn) s = .next (skipIf (s.getV x != nn) s) := rfl

@[simp] theorem exec_seReg (x y : Reg) (s : State) :
    exec (.seReg x y) s = .next (skipIf (s.getV x == s.getV y) s) := rfl

@[simp] theorem exec_sneReg (x y : Reg) (s : State) :
    exec (.sneReg x y) s = .next (skipIf (s.getV x != s.getV y) s) := rfl

@[simp] theorem exec_skp (x : Reg) (s : State) :
    exec (.skp x) s = .next (skipIf (keyDown8 s.keys (s.getV x)) s) := rfl

@[simp] theorem exec_sknp (x : Reg) (s : State) :
    exec (.sknp x) s = .next (skipIf (!keyDown8 s.keys (s.getV x)) s) := rfl

@[simp] theorem exec_ldImm (x : Reg) (nn : Byte) (s : State) :
    exec (.ldImm x nn) s = .next (nextPC (s.setV x nn)) := rfl

@[simp] theorem exec_addImm (x : Reg) (nn : Byte) (s : State) :
    exec (.addImm x nn) s = .next (nextPC (s.setV x (s.getV x + nn))) := rfl

@[simp] theorem exec_rnd (x : Reg) (nn : Byte) (s : State) :
    exec (.rnd x nn) s = .next (nextPC (s.setV x (nn &&& s.rnd))) := rfl

@[simp] theorem exec_mov (x y : Reg) (s : State) :
    exec (.mov x y) s = .next (nextPC (s.setV x (s.getV y))) := rfl

@[simp] theorem exec_or (x y : Reg) (s : State) :
    exec (.or x y) s = .next (nextPC (s.setV x (s.getV x ||| s.getV y))) := rfl

@[simp] theorem exec_and (x y : Reg) (s : State) :
    exec (.and x y) s = .next (nextPC (s.setV x (s.getV x &&& s.getV y))) := rfl

@[simp] theorem exec_xor (x y : Reg) (s : State) :
    exec (.xor x y) s = .next (nextPC (s.setV x (s.getV x ^^^ s.getV y))) := rfl

@[simp] theorem exec_add (x y : Reg) (s : State) :
    exec (.add x y) s = .next (aluResultFlag x (BitVec.ofNat 8 (exactSum (s.getV x) (s.getV y)))
      (carry (s.getV x) (s.getV y)) s) := rfl

@[simp] theorem exec_sub (x y : Reg) (s : State) :
    exec (.sub x y) s = .next (aluResultFlag x (BitVec.ofInt 8 (exactDiff (s.getV x) (s.getV y)))
      (noBorrow (s.getV x) (s.getV y)) s) := rfl

@[simp] theorem exec_subn (x y : Reg) (s : State) :
    exec (.subn x y) s = .next (aluResultFlag x (BitVec.ofInt 8 (exactDiff (s.getV y) (s.getV x)))
      (noBorrow (s.getV y) (s.getV x)) s) := rfl

@[simp] theorem exec_shr (x y : Reg) (s : State) :
    exec (.shr x y) s = .next (aluResultFlag x (s.getV y >>> 1) (lowBit (s.getV y)) s) := rfl

@[simp] theorem exec_shl (x y : Reg) (s : State) :
    exec (.shl x y) s = .next (aluResultFlag y (s.getV y <<< 1) (highBit (s.getV y))
      (s.setV x (s.getV y <<< 1))) := rfl

@[simp] theorem exec_ldI (nnn : Imm12) (s : State) :
    exec (.ldI nnn) s = .next (nextPC (setI (immWord nnn) s)) := rfl

@[simp] theorem exec_addI (x : Reg) (s : State) :
    exec (.addI x) s = .next (nextPC (setI (s.i + (s.getV x).zeroExtend 16) s)) := rfl

@[simp] theorem exec_drw (x y : Reg) (n : Nibble) (s : State) :
    exec (.drw x y n) s = .next (nextPC (raiseFrameChanged
      (setFlag (drawRows (s.getV x) (s.getV y) n.toNat (s, false)).2
        (drawRows (s.getV x) (s.getV y) n.toNat (s, false)).1))) := rfl

@[simp] theorem exec_ldVxK (x : Reg) (s : State) :
    exec (.ldVxK x) s
      = .next (if s.keys ≠ 0 then takeKey x s else { s with awaiting := true, waitX := x }) := rfl

@[simp] theorem exec_ldVxDt (x : Reg) (s : State) :
    exec (.ldVxDt x) s = .next (nextPC (s.setV x s.dt)) := rfl

@[simp] theorem exec_ldDtVx (x : Reg) (s : State) :
    exec (.ldDtVx x) s = .next (nextPC { s with dt := s.getV x }) := rfl

@[simp] theorem exec_ldStVx (x : Reg) (s : State) :
    exec (.ldStVx x) s = .next (nextPC { s with st := s.getV x }) := rfl

/-- The three stores of `FX33` (R200). -/
def storeDigits (b : Byte) (s : State) : State :=
  memWrite (addrAtI s 2) (decimalDigit b 1)
    (memWrite (addrAtI s 1) (decimalDigit b 10) (memWrite (addrAtI s 0) (decimalDigit b 100) s))

@[simp] theorem exec_ldB (x : Reg) (s : State) :
    exec (.ldB x) s = .next (nextPC (storeDigits (s.getV x) s)) := rfl

@[simp] theorem exec_stRegs (x : Reg) (s : State) :
    exec (.stRegs x) s = .next (nextPC (storeRegs (x.val + 1) s)) := rfl

@[simp] theorem exec_ldRegs (x : Reg) (s : State) :
    exec (.ldRegs x) s = .next (nextPC (loadRegs (x.val + 1) s)) := rfl

/-- The one next state an instruction can have answered. -/
theorem eq_of_exec_next {i : Instr} {s t u : State} (h : exec i s = .next t)
    (hu : exec i s = .next u) : t = u := by
  rw [h] at hu; exact Host.Outcome.next.inj hu

/-! ## Registers read through the end of an instruction -/

@[simp] theorem getV_nextPC (s : State) (r : Reg) : (nextPC s).getV r = s.getV r := rfl

@[simp] theorem getV_raiseFrameChanged (s : State) (r : Reg) :
    (raiseFrameChanged s).getV r = s.getV r := rfl

theorem getV_setV_of_ne {x r : Reg} (hr : r ≠ x) (b : Byte) (s : State) :
    (s.setV x b).getV r = s.getV r := by
  rw [getV_setV, if_neg hr]

theorem getV_aluResultFlag (x : Reg) (b : Byte) (c : Bool) (s : State) (r : Reg) :
    (aluResultFlag x b c s).getV r = if r = 15 then flagByte c else if r = x then b else s.getV r := by
  rw [aluResultFlag, getV_nextPC, getV_setFlag, getV_setV]

theorem nextPC_setV_frame (x : Reg) (b : Byte) (s : State) :
    OnlyChanges [.pc, .v] s (nextPC (s.setV x b)) := by
  apply OnlyChanges.of_fields <;> simp

theorem aluResultFlag_frame (x : Reg) (b : Byte) (c : Bool) (s : State) :
    OnlyChanges [.pc, .v] s (aluResultFlag x b c s) := by
  apply OnlyChanges.of_fields <;> simp [aluResultFlag]

theorem nextPC_setI_frame (w : Word) (s : State) : OnlyChanges [.pc, .i] s (nextPC (setI w s)) := by
  apply OnlyChanges.of_fields <;> simp

/-- Advancing PC at the end keeps a frame that lets PC change. -/
theorem OnlyChanges.nextPC {ps : List Part} {s t : State} (h : OnlyChanges ps s t) (hpc : .pc ∈ ps) :
    OnlyChanges ps s (nextPC t) :=
  h.trans ((nextPC_frame t).mono (by simpa using hpc))

/-! ## Block transfers (R203, R206) -/

theorem blockReg_val (r : Reg) : blockReg r.val = r := Fin.ofNat_val_eq_self r

theorem toNat_incI (s : State) : (incI s).i.toNat = blockAddr s 1 := by
  simp [blockAddr, BitVec.toNat_add]

/-- The k-th block address after n increments of I is the (n + k)-th (R208). -/
theorem blockAddr_of_toNat {s t : State} {n : Nat} (h : t.i.toNat = blockAddr s n) (k : Nat) :
    blockAddr t k = blockAddr s (n + k) := by
  simp only [blockAddr, h]; omega

theorem blockAddr_zero (s : State) : blockAddr s 0 = s.i.toNat := Nat.mod_eq_of_lt s.i.isLt

/-- Fewer than 65536 consecutive block addresses are all different. -/
theorem blockAddr_inj {s : State} {j k : Nat} (hj : j < 65536) (hk : k < 65536)
    (h : blockAddr s j = blockAddr s k) : j = k := by
  simp only [blockAddr] at h; omega

theorem storeRegs_frame (n : Nat) (s : State) : OnlyChanges [.mem, .i, .ev] s (storeRegs n s) := by
  induction n with
  | zero => exact .refl _ s
  | succ n ih =>
    rw [storeRegs_succ]
    exact (ih.trans ((memWrite_frame _ _ _).mono (by decide))).trans ((setI_frame _ _).mono (by decide))

theorem loadRegs_frame (n : Nat) (s : State) : OnlyChanges [.v, .i, .ev] s (loadRegs n s) := by
  induction n with
  | zero => exact .refl _ s
  | succ n ih =>
    rw [loadRegs_succ]
    exact ((ih.trans ((checkAddr_frame _ _).mono (by decide))).trans
      ((setV_frame _ _ _).mono (by decide))).trans ((setI_frame _ _).mono (by decide))

/-- I after n transfers of a store (R203). -/
theorem storeRegs_i (n : Nat) (s : State) : (storeRegs n s).i.toNat = blockAddr s n := by
  induction n with
  | zero => exact (blockAddr_zero s).symm
  | succ n ih =>
    rw [storeRegs_succ, toNat_incI]
    exact blockAddr_of_toNat (by rw [memWrite_i, ih]) 1

/-- I after n transfers of a load (R206). -/
theorem loadRegs_i (n : Nat) (s : State) : (loadRegs n s).i.toNat = blockAddr s n := by
  induction n with
  | zero => exact (blockAddr_zero s).symm
  | succ n ih =>
    rw [loadRegs_succ, toNat_incI]
    exact blockAddr_of_toNat (by rw [setV_i, checkAddr_i, ih]) 1

/-- One transfer of a store, with the address and the register's value of the start (R203). -/
theorem byteAt_storeRegs_succ (n : Nat) (s : State) (a : Nat) :
    (storeRegs (n + 1) s).byteAt a
      = if a = blockAddr s n ∧ blockAddr s n ≤ 0xFFF then s.getV (blockReg n)
        else (storeRegs n s).byteAt a := by
  have hv : (storeRegs n s).getV (blockReg n) = s.getV (blockReg n) :=
    storeRegs_frame n s .v (by decide) _
  rw [storeRegs_succ, storeRegs_i, hv]
  exact byteAt_memWrite _ _ _ _

/-- A store leaves every byte alone that is at none of its addresses (R203). -/
theorem byteAt_storeRegs_of_ne {n : Nat} {s : State} {a : Nat} (h : ∀ k < n, a ≠ blockAddr s k) :
    (storeRegs n s).byteAt a = s.byteAt a := by
  induction n with
  | zero => rfl
  | succ n ih =>
    rw [byteAt_storeRegs_succ, if_neg fun ha => h n (Nat.lt_succ_self n) ha.1]
    exact ih fun k hk => h k (Nat.lt_succ_of_lt hk)

/-- A store leaves at each of its addresses in range the register it transferred there (R203). -/
theorem byteAt_storeRegs {n k : Nat} {s : State} (hk : k < n) (hn : n ≤ 65536)
    (ha : blockAddr s k ≤ 0xFFF) :
    (storeRegs n s).byteAt (blockAddr s k) = s.getV (blockReg k) := by
  induction n with
  | zero => exact absurd hk (Nat.not_lt_zero k)
  | succ n ih =>
    rw [byteAt_storeRegs_succ]
    by_cases hkn : k = n
    · subst hkn
      rw [if_pos ⟨rfl, ha⟩]
    · have hlater : blockAddr s k ≠ blockAddr s n := fun h =>
        hkn (blockAddr_inj (by omega) (by omega) h)
      rw [if_neg fun h => hlater h.1]
      exact ih (by omega) (by omega)

/-- The registers after n transfers of a load (R206). -/
theorem getV_loadRegs {n : Nat} (hn : n ≤ 16) (s : State) (r : Reg) :
    (loadRegs n s).getV r = if r.val < n then s.byteAt (blockAddr s r.val) else s.getV r := by
  induction n with
  | zero => rfl
  | succ n ih =>
    have hbyte : (loadRegs n s).byteAt (loadRegs n s).i.toNat = s.byteAt (blockAddr s n) := by
      rw [loadRegs_i]; exact loadRegs_frame n s .mem (by decide) _
    have hstep : (loadRegs (n + 1) s).getV r
        = if r = blockReg n then s.byteAt (blockAddr s n) else (loadRegs n s).getV r := by
      rw [loadRegs_succ, hbyte]
      refine (getV_setV _ _ _ _).trans ?_
      rw [getV_congr (checkAddr_v _ _)]
    have hreg : r = blockReg n ↔ r.val = n := by
      rw [Fin.ext_iff, blockReg, Fin.val_ofNat, Nat.mod_eq_of_lt (by omega)]
    rw [hstep, ih (by omega)]
    by_cases hr : r.val = n
    · rw [if_pos (hreg.mpr hr), if_pos (by omega), hr]
    · rw [if_neg (mt hreg.mp hr)]
      have hlt : r.val < n + 1 ↔ r.val < n := by omega
      simp only [hlt]

/-! ## The sprite loop (R162) -/

theorem drawRow_frame (x0 y0 : Byte) (r : Nat) (q : State × Bool) :
    OnlyChanges [.fb, .ev] q.1 (drawRow x0 y0 r q).1 := by
  apply OnlyChanges.of_fields <;> simp [drawRow, memRead_eq]

theorem drawRows_frame (x0 y0 : Byte) (n : Nat) (q : State × Bool) :
    OnlyChanges [.fb, .ev] q.1 (drawRows x0 y0 n q).1 := by
  induction n with
  | zero => exact .refl _ _
  | succ n ih => exact ih.trans (drawRow_frame x0 y0 n _)

/-! ## The columns of R31 -/

theorem storeDigits_frame (b : Byte) (s : State) : OnlyChanges [.mem, .ev] s (storeDigits b s) :=
  ((memWrite_frame _ _ _).trans (memWrite_frame _ _ _)).trans (memWrite_frame _ _ _)

theorem raiseFrameChanged_frame (s : State) : OnlyChanges [.ev] s (raiseFrameChanged s) := by
  apply OnlyChanges.of_fields <;> simp

theorem setFlag_frame (c : Bool) (s : State) : OnlyChanges [.v] s (setFlag c s) := setV_frame _ _ s

theorem ldVxK_frame (x : Reg) (s : State) : OnlyChanges [.pc, .v, .wait] s
    (if s.keys ≠ 0 then takeKey x s else { s with awaiting := true, waitX := x }) := by
  split
  case isTrue => exact (takeKey_frame x s).mono (by decide)
  case isFalse => apply OnlyChanges.of_fields <;> simp

/-- An instruction changes only the parts its row of R31 marks. -/
theorem exec_frame {i : Instr} {s t : State} (h : exec i s = .next t) :
    OnlyChanges (writesOf i) s t := by
  cases i <;> obtain rfl := eq_of_exec_next h rfl
  case cls | ldDtVx | ldStVx => apply OnlyChanges.of_fields <;> simp [writesOf]
  case ret =>
    exact ((pop_frame s).mono (by simp [writesOf])).trans ((jumpTo_frame _ _).mono (by simp [writesOf]))
  case call =>
    exact ((push_frame _ s).mono (by simp [writesOf])).trans ((jumpTo_frame _ _).mono (by simp [writesOf]))
  case jp | jpV0 => exact jumpTo_frame _ s
  case seImm | sneImm | seReg | sneReg | skp | sknp => exact skipIf_frame _ s
  case ldImm | addImm | rnd | ldVxDt | mov | or | and | xor => exact nextPC_setV_frame _ _ s
  case add | sub | shr | subn => exact aluResultFlag_frame _ _ _ s
  case shl =>
    exact ((setV_frame _ _ s).mono (by simp [writesOf])).trans (aluResultFlag_frame _ _ _ _)
  case ldI | addI | ldF => exact nextPC_setI_frame _ s
  case drw =>
    exact ((((drawRows_frame _ _ _ (s, false)).mono (by simp [writesOf])).trans
      ((setFlag_frame _ _).mono (by simp [writesOf]))).trans
      ((raiseFrameChanged_frame _).mono (by simp [writesOf]))).nextPC (by simp [writesOf])
  case ldVxK => exact ldVxK_frame _ s
  case ldB => exact ((storeDigits_frame _ s).mono (by simp [writesOf])).nextPC (by simp [writesOf])
  case stRegs => exact ((storeRegs_frame _ s).mono (by simp [writesOf])).nextPC (by simp [writesOf])
  case ldRegs => exact ((loadRegs_frame _ s).mono (by simp [writesOf])).nextPC (by simp [writesOf])

/-- An instruction changes only its destination registers and, where it sets one, the flag (R11, R12). -/
theorem exec_getV {i : Instr} {s t : State} (h : exec i s = .next t) {r : Reg}
    (hr : regsWrittenBy i r = false) : t.getV r = s.getV r := by
  by_cases hv : .v ∈ writesOf i
  case neg => exact exec_frame h .v hv r
  cases i <;> simp [writesOf] at hv <;> simp [regsWrittenBy] at hr <;>
    obtain rfl := eq_of_exec_next h rfl
  case ldImm | addImm | rnd | ldVxDt | mov | or | and | xor => exact getV_setV_of_ne hr _ s
  case add | sub | shr | subn => rw [getV_aluResultFlag, if_neg hr.2, if_neg hr.1]
  case shl x y =>
    obtain ⟨⟨hx, hy⟩, hvf⟩ := hr
    exact (getV_setV_of_ne hvf _ _).trans ((getV_setV_of_ne hy _ _).trans (getV_setV_of_ne hx _ s))
  case drw => exact (getV_setV_of_ne hr _ _).trans (drawRows_frame _ _ _ (s, false) .v (by decide) r)
  case ldVxK =>
    split
    case isTrue => rw [takeKey_getV, if_neg hr]
    case isFalse => rfl
  case ldRegs x =>
    rw [getV_nextPC, getV_loadRegs (by omega), if_neg (by have := Fin.lt_def.mp hr; omega)]

/-- Settles O20: the frame of every instruction, and its registers. -/
theorem instructionsWriteOnlyTheirColumns : Obligations.InstructionsWriteOnlyTheirColumns :=
  fun _ _ _ h => ⟨exec_frame h, fun _ hr => exec_getV h hr⟩

end Sys2Proof.Machine
end

section
/-!
The step (spec/40_step_cycle.md): what it executes, its frame, and the three invariants (memory's canonical
form, the bound on the call stack of R102, the wait at its FX0A of R184).
-/

namespace Sys2Proof.Machine

/-! ## What a step executes -/

theorem executed_of_awaiting {s : State} (h : s.awaiting = true) : executed s = none := by
  simp [executed, h]

theorem executed_of_not_awaiting {s : State} (h : s.awaiting = false) :
    executed s = decodeWord (fetchedWord s) := by
  simp [executed, h]

theorem executed_eq_some {s : State} {i : Instr} :
    executed s = some i ↔ s.awaiting = false ∧ decodeWord (fetchedWord s) = some i := by
  cases ha : s.awaiting <;> simp [executed, ha]

/-- A step at a known instruction is that instruction after the fetch, then the end of the step (R83). -/
theorem step_of_decoded {s : State} {i : Instr} (h : s.awaiting = false)
    (hd : decodeWord (fetchedWord s) = some i) : step s = onNext endStep (exec i (afterFetch s)) := by
  simp [step, h, runInstr, fetch_beginStep, hd]

theorem step_answers_next (s : State) : ∃ t, step s = .next t := by
  cases ha : s.awaiting with
  | true => exact ⟨_, step_of_awaiting ha⟩
  | false =>
    cases hd : decodeWord (fetchedWord s) with
    | none => exact ⟨_, step_of_unknown ha hd⟩
    | some i =>
      obtain ⟨u, hu⟩ := exec_answers_next i (afterFetch s)
      exact ⟨endStep u, by rw [step_of_decoded ha hd, hu, onNext]⟩

/-- Settles O14: each of the three kinds of step answers a next state. -/
theorem everyStateHasANextState : Obligations.EveryStateHasANextState := step_answers_next

/-- Settles O12: the state after the fetch is `afterFetch`. -/
theorem stepRunsTheDecodedInstruction : Obligations.StepRunsTheDecodedInstruction :=
  fun _ _ ha hd => step_of_decoded ha hd

/-! ## Frames of the parts of a step -/

theorem afterFetch_frame (s : State) : OnlyChanges [.ev] s (afterFetch s) := by
  apply OnlyChanges.of_fields <;> simp [afterFetch]

theorem execUnknown_frame (s : State) : OnlyChanges [.pc, .ev] s (execUnknown s) := by
  apply OnlyChanges.of_fields <;> simp [execUnknown]

theorem waitStep_of_noKey {s : State} (h : s.keys = 0) : waitStep s = s := if_neg (not_not_intro h)

theorem waitStep_of_key {s : State} (h : s.keys ≠ 0) : waitStep s = takeKey s.waitX s := if_pos h

theorem waitStep_frame (s : State) : OnlyChanges [.pc, .v, .wait] s (waitStep s) := by
  by_cases h : s.keys = 0
  · rw [waitStep_of_noKey h]; exact .refl _ s
  · rw [waitStep_of_key h]; exact (takeKey_frame _ s).mono (by decide)

/-- The parts a step may change besides those of its instruction: the timers, the events, the host's side. -/
def stepParts : List Part := [.dt, .st, .ev, .host]

/-- A step around an instruction with a frame has that frame and the step's own parts. -/
theorem OnlyChanges.step {ps : List Part} {s u : State} (h : OnlyChanges ps (afterFetch s) u) :
    OnlyChanges (ps ++ stepParts) s (endStep u) :=
  (((afterFetch_frame s).mono (by simp [stepParts])).trans (h.mono (by simp +contextual))).trans
    ((endStep_frame u).mono (by simp [stepParts]))

/-- The inversion of a step by what it executes: before the tick it has done that instruction, or nothing but
what a wait or an unknown opcode does (R80, R85, R86). -/
theorem step_before_tick {s t : State} (h : step s = .next t) : ∃ u, t = endStep u ∧
    ((executed s = none ∧ OnlyChanges [.pc, .v, .wait, .ev] s u)
      ∨ ∃ i, executed s = some i ∧ exec i (afterFetch s) = .next u) := by
  obtain ⟨ha, rfl⟩ | ⟨ha, hd, rfl⟩ | ⟨ha, i, u, hd, hu, rfl⟩ := step_cases h
  · refine ⟨_, rfl, .inl ⟨executed_of_awaiting ha, ?_⟩⟩
    exact ((beginStep_frame s).mono (by simp)).trans ((waitStep_frame _).mono (by simp))
  · refine ⟨_, rfl, .inl ⟨(executed_of_not_awaiting ha).trans hd, ?_⟩⟩
    exact ((afterFetch_frame s).mono (by simp)).trans ((execUnknown_frame _).mono (by simp))
  · exact ⟨u, rfl, .inr ⟨i, (executed_of_not_awaiting ha).trans hd, hu⟩⟩

/-- A step that executes an instruction is that instruction and then the end of the step. -/
theorem step_of_executed {s t : State} (h : step s = .next t) {i : Instr} (hi : executed s = some i) :
    ∃ u, exec i (afterFetch s) = .next u ∧ t = endStep u := by
  obtain ⟨u, rfl, ⟨hnone, -⟩ | ⟨j, hj, hu⟩⟩ := step_before_tick h
  · rw [hi] at hnone; cases hnone
  · obtain rfl : i = j := Option.some.inj (hi.symm.trans hj)
    exact ⟨u, hu, rfl⟩

/-- A step that executes no instruction leaves memory, the stack, I and the framebuffer alone. -/
theorem step_frame_of_none {s t : State} (h : step s = .next t) (hi : executed s = none) :
    OnlyChanges ([.pc, .v, .wait] ++ stepParts) s t := by
  obtain ⟨u, rfl, ⟨-, hu⟩ | ⟨j, hj, -⟩⟩ := step_before_tick h
  · exact (hu.mono (by simp [stepParts])).trans ((endStep_frame u).mono (by simp [stepParts]))
  · rw [hi] at hj; cases hj

/-- The fetched word depends on PC and memory alone. -/
theorem OnlyChanges.fetchedWord_eq {ps : List Part} {s t : State} (h : OnlyChanges ps s t)
    (hpc : .pc ∉ ps) (hmem : .mem ∉ ps) : fetchedWord t = fetchedWord s := by
  have hpc : t.pc = s.pc := h .pc hpc
  have hmem : ∀ a, t.byteAt a = s.byteAt a := h .mem hmem
  rw [fetchedWord, fetchedWord, hpc, hmem, hmem]

/-! ## Memory's canonical form -/

theorem storeDigits_wf (b : Byte) {s : State} (h : s.mem.wf) : (storeDigits b s).mem.wf :=
  memWrite_wf _ _ (memWrite_wf _ _ (memWrite_wf _ _ h))

theorem storeRegs_wf (n : Nat) {s : State} (h : s.mem.wf) : (storeRegs n s).mem.wf := by
  induction n with
  | zero => exact h
  | succ n ih => rw [storeRegs_succ, incI_mem]; exact memWrite_wf _ _ ih

theorem loadRegs_mem (n : Nat) (s : State) : (loadRegs n s).mem = s.mem := by
  induction n with
  | zero => rfl
  | succ n ih => rw [loadRegs_succ, incI_mem, setV_mem, checkAddr_mem, ih]

theorem drawRows_mem (x0 y0 : Byte) (n : Nat) (q : State × Bool) :
    (drawRows x0 y0 n q).1.mem = q.1.mem := by
  induction n with
  | zero => rfl
  | succ n ih => exact (checkAddr_mem _ _).trans ih

/-- An instruction keeps memory canonical: three kinds store through the checked write, the others leave the
list as it is. -/
theorem exec_wf {i : Instr} {s t : State} (h : exec i s = .next t) (hs : s.mem.wf) : t.mem.wf := by
  cases i <;> obtain rfl := eq_of_exec_next h rfl
  case ldB => exact storeDigits_wf _ hs
  case stRegs => exact storeRegs_wf _ hs
  case ldRegs => rw [nextPC_mem, loadRegs_mem]; exact hs
  case drw => rw [nextPC_mem, raiseFrameChanged_mem, setFlag_mem, drawRows_mem]; exact hs
  case seImm | sneImm | seReg | sneReg | skp | sknp => rw [skipIf_mem]; exact hs
  case ldVxK => split <;> exact hs
  all_goals exact hs

theorem waitStep_mem (s : State) : (waitStep s).mem = s.mem := by
  by_cases h : s.keys = 0
  · rw [waitStep_of_noKey h]
  · rw [waitStep_of_key h, takeKey_mem]

/-- Settles O53: of the parts of a step only an instruction can touch memory. -/
theorem stepsKeepMemoryCanonical : Obligations.StepsKeepMemoryCanonical := by
  intro s t hs h
  obtain ⟨ha, rfl⟩ | ⟨ha, hd, rfl⟩ | ⟨ha, i, u, hd, hu, rfl⟩ := step_cases h
  · rw [MemoryCanonical, endStep_mem, waitStep_mem]; exact hs
  · exact hs
  · have hu : u.mem.wf := exec_wf hu hs
    exact hu

/-! ## The bound on the call stack (R102) -/

theorem decodeWord_zero : decodeWord 0 = none := by decide

/-- Only an instruction below 0x1000 is known (R82, R67). -/
theorem pc_le_of_executed {s : State} {i : Instr} (hi : executed s = some i) : s.pc.toNat ≤ 0xFFF := by
  obtain ⟨-, hd⟩ := executed_eq_some.mp hi
  by_contra hpc
  rw [fetchedWord_outOfRange s (Nat.lt_of_not_le hpc), decodeWord_zero] at hd
  cases hd

theorem stack_mem_writesOf {i : Instr} (h : .stack ∈ writesOf i) : i = .ret ∨ ∃ nnn, i = .call nnn := by
  cases i <;> simp [writesOf] at h ⊢

/-- A pushed return address is at most 0x1001, because the CALL lies at 0xFFF or below. -/
theorem exec_call_stackBounded {nnn : Imm12} {s t : State} (h : exec (.call nnn) s = .next t)
    (hpc : s.pc.toNat ≤ 0xFFF) (hs : StackBounded s) : StackBounded t := by
  obtain rfl := eq_of_exec_next h (exec_call nnn s)
  intro k
  have hslot : (jumpTo (immWord nnn) (push (s.pc + 2) s)).slot k
      = if k = s.sp then s.pc + 2 else s.slot k := slot_push _ s k
  rw [hslot]
  split
  case isTrue => rw [BitVec.toNat_add]; simp; omega
  case isFalse => exact hs k

theorem StackBounded.of_frame {ps : List Part} {s t : State} (hs : StackBounded s)
    (hf : OnlyChanges ps s t) (hps : .stack ∉ ps) : StackBounded t := fun k => by
  obtain ⟨hslot, -⟩ := hf .stack hps
  rw [hslot]; exact hs k

/-- Settles O54: only CALL writes a slot, and what it pushes is PC + 2 with PC at most 0xFFF. -/
theorem stepsKeepTheStackBounded : Obligations.StepsKeepTheStackBounded := by
  intro s t hs h
  have hfetched : StackBounded (afterFetch s) := hs
  obtain ⟨u, rfl, ⟨-, hf⟩ | ⟨i, hi, hu⟩⟩ := step_before_tick h
  · exact (hs.of_frame hf (by decide)).of_frame (endStep_frame u) (by decide)
  · refine StackBounded.of_frame ?_ (endStep_frame u) (by decide)
    by_cases hstack : .stack ∈ writesOf i
    · obtain rfl | ⟨nnn, rfl⟩ := stack_mem_writesOf hstack
      · obtain rfl := eq_of_exec_next hu (exec_ret _)
        exact hfetched
      · exact exec_call_stackBounded hu (pc_le_of_executed hi) hfetched
    · exact hfetched.of_frame (exec_frame hu) hstack

/-! ## The wait at its FX0A (R184) -/

theorem wait_mem_writesOf {i : Instr} (h : .wait ∈ writesOf i) : ∃ x, i = .ldVxK x := by
  cases i <;> simp [writesOf] at h ⊢

/-- Settles O55: a wait goes on with PC, memory and its register unchanged, and only an FX0A starts one. -/
theorem stepsKeepTheWaitAtItsInstruction : Obligations.StepsKeepTheWaitAtItsInstruction := by
  intro s t hs h hawait
  obtain ⟨ha, rfl⟩ | ⟨ha, hd, rfl⟩ | ⟨ha, i, u, hd, hu, rfl⟩ := step_cases h
  · by_cases hkeys : (beginStep s).keys = 0
    · rw [waitStep_of_noKey hkeys]; exact hs ha
    · rw [waitStep_of_key hkeys] at hawait; cases hawait
  · obtain ⟨hawaiting, -⟩ := (execUnknown_frame (afterFetch s)).step .wait (by decide)
    rw [hawaiting, ha] at hawait; cases hawait
  · by_cases hwait : .wait ∈ writesOf i
    · obtain ⟨x, rfl⟩ := wait_mem_writesOf hwait
      obtain rfl := eq_of_exec_next hu (exec_ldVxK x _)
      by_cases hkeys : (afterFetch s).keys = 0
      · rw [if_neg (not_not_intro hkeys)] at hawait ⊢; exact hd
      · rw [if_pos hkeys] at hawait; cases hawait
    · obtain ⟨hawaiting, -⟩ := exec_frame hu .wait hwait
      rw [endStep_awaiting, hawaiting] at hawait
      exact absurd (ha.symm.trans hawait) Bool.false_ne_true

end Sys2Proof.Machine
end

section
/-!
What a step reports and what it reads: the timers (R23, R88), the three events (R220 to R224) and the input
ports (R27, R28).
-/

namespace Sys2Proof.Machine

/-! ## Timers -/

theorem dt_mem_writesOf {i : Instr} (h : .dt ∈ writesOf i) : ∃ x, i = .ldDtVx x := by
  cases i <;> simp [writesOf] at h ⊢

theorem st_mem_writesOf {i : Instr} (h : .st ∈ writesOf i) : ∃ x, i = .ldStVx x := by
  cases i <;> simp [writesOf] at h ⊢

/-- A step that does not execute `FX15` ticks the delay timer it finds (R23). -/
theorem step_dt {s t : State} (h : step s = .next t) (hi : ∀ x, executed s ≠ some (.ldDtVx x)) :
    t.dt.toNat = s.dt.toNat - 1 := by
  obtain ⟨u, rfl, ⟨-, hf⟩ | ⟨i, hex, hu⟩⟩ := step_before_tick h
  · have hdt : u.dt = s.dt := hf .dt (by decide)
    rw [endStep_dt, tickDown_toNat, hdt]
  · have hkept : .dt ∉ writesOf i := fun hmem => by
      obtain ⟨x, rfl⟩ := dt_mem_writesOf hmem
      exact hi x hex
    have hdt : u.dt = s.dt := exec_frame hu .dt hkept
    rw [endStep_dt, tickDown_toNat, hdt]

/-- A step that does not execute `FX18` ticks the sound timer it finds (R23). -/
theorem step_st {s t : State} (h : step s = .next t) (hi : ∀ x, executed s ≠ some (.ldStVx x)) :
    t.st.toNat = s.st.toNat - 1 := by
  obtain ⟨u, rfl, ⟨-, hf⟩ | ⟨i, hex, hu⟩⟩ := step_before_tick h
  · have hst : u.st = s.st := hf .st (by decide)
    rw [endStep_st, tickDown_toNat, hst]
  · have hkept : .st ∉ writesOf i := fun hmem => by
      obtain ⟨x, rfl⟩ := st_mem_writesOf hmem
      exact hi x hex
    have hst : u.st = s.st := exec_frame hu .st hkept
    rw [endStep_st, tickDown_toNat, hst]

/-- Settles O17: the tick comes last, so it finds the timer `FX15` or `FX18` wrote, or the old one. -/
theorem everyStepTicksTheTimersLast : Obligations.EveryStepTicksTheTimersLast := by
  intro s t h
  refine ⟨fun x hx => ?_, step_dt h, fun x hx => ?_, step_st h⟩
  · obtain ⟨u, hu, rfl⟩ := step_of_executed h hx
    obtain rfl := eq_of_exec_next hu (exec_ldDtVx x _)
    exact tickDown_toNat (s.getV x)
  · obtain ⟨u, hu, rfl⟩ := step_of_executed h hx
    obtain rfl := eq_of_exec_next hu (exec_ldStVx x _)
    exact tickDown_toNat (s.getV x)

/-! ## Events -/

/-- Some of the addresses is above 0xFFF. -/
def anyAbove (l : List Nat) : Bool := l.any (0xFFF < ·)

theorem anyAbove_iff {l : List Nat} : anyAbove l = true ↔ ∃ a ∈ l, a > 0xFFF := by simp [anyAbove]

theorem anyAbove_range_succ (f : Nat → Nat) (n : Nat) :
    anyAbove ((List.range (n + 1)).map f)
      = (anyAbove ((List.range n).map f) || decide (0xFFF < f n)) := by
  simp [anyAbove, List.range_succ]

/-- The instruction sets `frame_changed` (R163). -/
def draws : Instr → Bool
  | .drw _ _ _ => true
  | _ => false

theorem draws_iff {i : Instr} : draws i = true ↔ ∃ x y n, i = .drw x y n := by
  cases i <;> simp [draws]

/-- The event a list of accesses raises. -/
def Events.access (ev : Events) (l : List Nat) : Events :=
  { ev with addrOor := ev.addrOor || anyAbove l }

theorem storeRegs_ev (n : Nat) (s : State) :
    (storeRegs n s).ev = s.ev.access ((List.range n).map (blockAddr s)) := by
  induction n with
  | zero => simp [storeRegs, Events.access, anyAbove]
  | succ n ih =>
    rw [storeRegs_succ, incI_ev, memWrite_ev, storeRegs_i, ih]
    simp only [Events.access, anyAbove_range_succ, Bool.or_assoc]

theorem loadRegs_ev (n : Nat) (s : State) :
    (loadRegs n s).ev = s.ev.access ((List.range n).map (blockAddr s)) := by
  induction n with
  | zero => simp [loadRegs, Events.access, anyAbove]
  | succ n ih =>
    rw [loadRegs_succ, incI_ev, setV_ev, checkAddr_ev, loadRegs_i, ih]
    simp only [Events.access, anyAbove_range_succ, Bool.or_assoc]

theorem drawRows_ev (x0 y0 : Byte) (n : Nat) (q : State × Bool) :
    (drawRows x0 y0 n q).1.ev = q.1.ev.access ((List.range n).map (addrAtI q.1)) := by
  induction n with
  | zero => simp [drawRows, Events.access, anyAbove]
  | succ n ih =>
    have hi : (drawRows x0 y0 n q).1.i = q.1.i := drawRows_frame x0 y0 n q .i (by decide)
    have haddr : addrAtI (drawRows x0 y0 n q).1 n = addrAtI q.1 n := by rw [addrAtI, addrAtI, hi]
    refine (checkAddr_ev (addrAtI (drawRows x0 y0 n q).1 n) (drawRows x0 y0 n q).1).trans ?_
    rw [haddr, ih]
    simp only [Events.access, anyAbove_range_succ, Bool.or_assoc]

theorem storeDigits_ev (b : Byte) (s : State) :
    (storeDigits b s).ev = s.ev.access ((List.range 3).map (addrAtI s)) := by
  have hthree : (List.range 3).map (addrAtI s) = [addrAtI s 0, addrAtI s 1, addrAtI s 2] := rfl
  rw [storeDigits, memWrite_ev, memWrite_ev, memWrite_ev, hthree]
  simp only [Events.access, anyAbove, List.any_cons, List.any_nil, Bool.or_false, Bool.or_assoc]

/-- An instruction whose row of R31 marks no event accesses no data and draws nothing. -/
theorem silent_of_ev_notMem_writesOf {i : Instr} (h : .ev ∉ writesOf i) (s : State) :
    dataAddrs i s = [] ∧ draws i = false := by
  cases i <;> simp [writesOf, dataAddrs, draws] at h ⊢

/-- An instruction adds to the events the accesses of R208 and, for `DXYN`, the frame change. -/
theorem exec_ev {i : Instr} {s t : State} (h : exec i s = .next t) :
    t.ev = { s.ev.access (dataAddrs i s) with frameChanged := s.ev.frameChanged || draws i } := by
  by_cases hev : .ev ∈ writesOf i
  case neg =>
    obtain ⟨haddrs, hdraws⟩ := silent_of_ev_notMem_writesOf hev s
    have hkept : t.ev = s.ev := exec_frame h .ev hev
    simp [hkept, haddrs, hdraws, Events.access, anyAbove]
  cases i <;> simp [writesOf] at hev
  case drw x y n =>
    rw [eq_of_exec_next h (exec_drw x y n s), nextPC_ev, raiseFrameChanged_ev, setFlag_ev, drawRows_ev]
    simp [draws, dataAddrs, Events.access]
  case ldB x =>
    rw [eq_of_exec_next h (exec_ldB x s), nextPC_ev, storeDigits_ev]
    simp [draws, dataAddrs, Events.access]
  case stRegs x =>
    rw [eq_of_exec_next h (exec_stRegs x s), nextPC_ev, storeRegs_ev]
    simp [draws, dataAddrs, Events.access]
  case ldRegs x =>
    rw [eq_of_exec_next h (exec_ldRegs x s), nextPC_ev, loadRegs_ev]
    simp [draws, dataAddrs, Events.access]

theorem dataAddrs_afterFetch (i : Instr) (s : State) : dataAddrs i (afterFetch s) = dataAddrs i s := by
  cases i <;> rfl

/-- The events of a waiting step. -/
theorem step_ev_of_awaiting {s t : State} (h : step s = .next t) (ha : s.awaiting = true) :
    t.ev = Events.clear := by
  rw [step_of_awaiting ha] at h
  obtain rfl := Host.Outcome.next.inj h
  exact waitStep_frame (beginStep s) .ev (by decide)

/-- The events of a step at an unknown opcode: the fetch's, and the report. -/
theorem step_ev_of_unknown {s t : State} (h : step s = .next t) (ha : s.awaiting = false)
    (hi : executed s = none) : t.ev = ⟨decide (0xFFF ≤ s.pc.toNat), true, false⟩ := by
  rw [step_of_unknown ha ((executed_of_not_awaiting ha).symm.trans hi)] at h
  obtain rfl := Host.Outcome.next.inj h
  rfl

/-- The events of a step that executes an instruction: the fetch's, and the instruction's. -/
theorem step_ev_of_executed {s t : State} (h : step s = .next t) {i : Instr} (hi : executed s = some i) :
    t.ev = ⟨decide (0xFFF ≤ s.pc.toNat) || anyAbove (dataAddrs i s), false, draws i⟩ := by
  obtain ⟨u, hu, rfl⟩ := step_of_executed h hi
  rw [endStep_ev, exec_ev hu, dataAddrs_afterFetch]
  simp [Events.access, afterFetch]

/-- Settles O18: each event of the three kinds of step, read off. -/
theorem eventsReportWhatTheStepDid : Obligations.EventsReportWhatTheStepDid := by
  intro s t h
  cases hi : executed s with
  | some i =>
    obtain ⟨ha, -⟩ := executed_eq_some.mp hi
    rw [step_ev_of_executed h hi]
    simp [ha, draws_iff, anyAbove_iff]
  | none =>
    cases ha : s.awaiting with
    | true => rw [step_ev_of_awaiting h ha]; simp [Events.clear]
    | false => rw [step_ev_of_unknown h ha hi]; simp

/-- Settles O19: the two reported conditions of O18, both absent. -/
theorem silentStepsAreTheInRangeOnes : Obligations.SilentStepsAreTheInRangeOnes := by
  intro s t h
  obtain ⟨-, hunknown, haddr⟩ := eventsReportWhatTheStepDid s t h
  rw [Silent, ← Bool.not_eq_true, ← Bool.not_eq_true, hunknown, haddr]
  cases hi : executed s with
  | some i =>
    obtain ⟨ha, -⟩ := executed_eq_some.mp hi
    simp [ha]
  | none => cases ha : s.awaiting <;> simp

/-! ## Inputs (R27, R28) -/

theorem getV_driveInputs (inputs : List Inputs) (s : State) (r : Reg) :
    (driveInputs inputs s).getV r = s.getV r := rfl

theorem storeRegs_driveInputs (inputs : List Inputs) (n : Nat) (s : State) :
    storeRegs n (driveInputs inputs s) = driveInputs inputs (storeRegs n s) := by
  induction n with
  | zero => rfl
  | succ n ih =>
    rw [storeRegs_succ, storeRegs_succ, ih, memWrite_driveInputs]
    rfl

theorem loadRegs_driveInputs (inputs : List Inputs) (n : Nat) (s : State) :
    loadRegs n (driveInputs inputs s) = driveInputs inputs (loadRegs n s) := by
  induction n with
  | zero => rfl
  | succ n ih =>
    rw [loadRegs_succ, loadRegs_succ, ih, checkAddr_driveInputs]
    rfl

theorem storeDigits_driveInputs (inputs : List Inputs) (b : Byte) (s : State) :
    storeDigits b (driveInputs inputs s) = driveInputs inputs (storeDigits b s) := by
  simp only [storeDigits, memWrite_driveInputs]; rfl

theorem drawRows_driveInputs (inputs : List Inputs) (x0 y0 : Byte) (n : Nat) (s : State) (hit : Bool) :
    drawRows x0 y0 n (driveInputs inputs s, hit)
      = (driveInputs inputs (drawRows x0 y0 n (s, hit)).1, (drawRows x0 y0 n (s, hit)).2) := by
  induction n with
  | zero => rfl
  | succ n ih =>
    rw [drawRows_succ, drawRows_succ, ih]
    simp only [drawRow, memRead_eq, checkAddr_driveInputs]
    rfl

/-- Settles O21: an instruction reads the inputs through `keys` or `rnd` or not at all, and every operation
leaves the lined-up inputs as they are. -/
theorem inputsReachOnlyTheirReaders : Obligations.InputsReachOnlyTheirReaders := by
  intro i s inputs hkeys hrnd
  cases i
  case skp | sknp => simp only [exec_skp, exec_sknp, hkeys rfl, skipIf_driveInputs]; rfl
  case ldVxK x =>
    have hkeys := hkeys rfl
    simp only [exec_ldVxK, hkeys, onNext, apply_ite (driveInputs inputs), takeKey_eq]
    rfl
  case rnd => simp only [exec_rnd, hrnd rfl]; rfl
  case seImm | sneImm | seReg | sneReg => exact congrArg Host.Outcome.next (skipIf_driveInputs ..)
  case drw => simp only [exec_drw, getV_driveInputs, drawRows_driveInputs]; rfl
  case ldB => rw [exec_ldB, storeDigits_driveInputs]; rfl
  case stRegs => rw [exec_stRegs, storeRegs_driveInputs]; rfl
  case ldRegs => rw [exec_ldRegs, loadRegs_driveInputs]; rfl
  all_goals rfl

end Sys2Proof.Machine
end

section
/-!
The framebuffer (spec/44_display.md). A blit XORs a mask onto the frame and hits where the mask meets a 1 cell;
two blits whose masks are disjoint are one blit of both masks. So a row is its pixels, and a sprite its rows.
-/

namespace Sys2Proof.Machine

/-- From p to q the mask was XORed onto the frame, and the hit flag raised if it met a 1 cell (R161, R162). -/
structure Blits (m : Fin 32 → Fin 64 → Bool) (p q : Frame × Bool) : Prop where
  cell : ∀ row col, q.1.cell row col = (p.1.cell row col ^^ m row col)
  hit : q.2 = true ↔ p.2 = true ∨ ∃ row col, p.1.cell row col = true ∧ m row col = true

theorem Blits.refl (p : Frame × Bool) : Blits (fun _ _ => false) p p := ⟨by simp, by simp⟩

/-- Two blits one after the other, when no cell is under both masks. -/
theorem Blits.trans {m m' both : Fin 32 → Fin 64 → Bool} {p q r : Frame × Bool} (h : Blits m p q)
    (h' : Blits m' q r) (hboth : ∀ row col, both row col = (m row col || m' row col))
    (hdisjoint : ∀ row col, m row col = true → m' row col = false) : Blits both p r := by
  have hunder : ∀ row col, m' row col = true → q.1.cell row col = p.1.cell row col := by
    intro row col hm'
    have hm : m row col = false := by
      by_contra hm
      rw [hdisjoint row col (by simpa using hm)] at hm'
      cases hm'
    rw [h.cell, hm, Bool.xor_false]
  constructor
  · intro row col
    rw [h'.cell, h.cell, hboth, Bool.xor_assoc]
    cases hm : m row col with
    | false => simp
    | true => simp [hdisjoint row col hm]
  · have hcells : ∀ row col, (q.1.cell row col = true ∧ m' row col = true)
        ↔ (p.1.cell row col = true ∧ m' row col = true) := fun row col =>
      and_congr_left fun hm' => by rw [hunder row col hm']
    rw [h'.hit, h.hit, or_assoc]
    simp only [hcells, hboth, Bool.or_eq_true, and_or_left, exists_or]

/-! ## Pixels, rows, sprites -/

/-- Bit offset k of sprite row r, whose byte is b, is a 1 and falls on the cell (R162, R164). -/
def pixelOn (x0 y0 b : Byte) (r k : Nat) (row : Fin 32) (col : Fin 64) : Bool :=
  decide (row.val = (y0.toNat + r) % 32) && decide (col.val = (x0.toNat + k) % 64) && b.getLsbD (7 - k)

theorem pixelOn_iff {x0 y0 b : Byte} {r k : Nat} {row : Fin 32} {col : Fin 64} :
    pixelOn x0 y0 b r k row col = true
      ↔ (row = pixelRow y0 r ∧ col = pixelCol x0 k) ∧ b.getLsbD (7 - k) = true := by
  simp [pixelOn, Fin.ext_iff, pixelRow, pixelCol]

theorem blitPixel_blits (x0 y0 b : Byte) (r k : Nat) (p : Frame × Bool) :
    Blits (pixelOn x0 y0 b r k) p (blitPixel x0 y0 b r k p) := by
  by_cases hbit : b.getLsbD (7 - k) = true
  case neg =>
    have hmask : pixelOn x0 y0 b r k = fun _ _ => false := by
      funext row col; simp [pixelOn, hbit]
    rw [hmask, blitPixel, if_neg hbit]; exact .refl p
  have htoggle := fun row col => cell_xorPixel p.1 (pixelCol x0 k) col (pixelRow y0 r) row
  rw [blitPixel, if_pos hbit]
  constructor
  · intro row col
    rw [(htoggle row col).2]
    by_cases hon : row = pixelRow y0 r ∧ col = pixelCol x0 k
    · rw [if_pos hon, pixelOn_iff.mpr ⟨hon, hbit⟩, hon.1, hon.2, Bool.xor_true]
    · have hoff : pixelOn x0 y0 b r k row col = false := by
        rw [← Bool.not_eq_true, pixelOn_iff]; exact fun h => hon h.1
      rw [if_neg hon, hoff, Bool.xor_false]
  · simp only [(htoggle (pixelRow y0 r) (pixelCol x0 k)).1, Bool.or_eq_true, pixelOn_iff, hbit, and_true]
    refine or_congr_right ⟨fun h => ⟨_, _, h, rfl, rfl⟩, ?_⟩
    rintro ⟨_, _, h, rfl, rfl⟩; exact h

/-- The first n bits of sprite row r on the cell. -/
def rowOn (x0 y0 b : Byte) (r n : Nat) (row : Fin 32) (col : Fin 64) : Bool :=
  (List.range n).any fun k => pixelOn x0 y0 b r k row col

theorem rowOn_succ (x0 y0 b : Byte) (r n : Nat) (row : Fin 32) (col : Fin 64) :
    rowOn x0 y0 b r (n + 1) row col = (rowOn x0 y0 b r n row col || pixelOn x0 y0 b r n row col) := by
  simp [rowOn, List.range_succ]

/-- A row is its pixels: up to 64 of them fall on different columns. -/
theorem blitRow_blits (x0 y0 b : Byte) (r : Nat) {n : Nat} (hn : n ≤ 64) (p : Frame × Bool) :
    Blits (rowOn x0 y0 b r n) p (blitRow x0 y0 b r n p) := by
  induction n with
  | zero => exact .refl p
  | succ n ih =>
    refine (ih (by omega)).trans (blitPixel_blits x0 y0 b r n _) (rowOn_succ x0 y0 b r n)
      fun row col hrow => ?_
    obtain ⟨k, hk, hpixel⟩ := List.any_eq_true.mp hrow
    obtain ⟨⟨-, hcol⟩, -⟩ := pixelOn_iff.mp hpixel
    rw [← Bool.not_eq_true, pixelOn_iff]
    rintro ⟨⟨-, hcol'⟩, -⟩
    have hsame : (x0.toNat + k) % 64 = (x0.toNat + n) % 64 := congrArg Fin.val (hcol.symm.trans hcol')
    have := List.mem_range.mp hk
    omega

theorem spriteOn_succ (s : State) (x0 y0 : Byte) (n : Nat) (row : Fin 32) (col : Fin 64) :
    spriteOn s x0 y0 (n + 1) row col
      = (spriteOn s x0 y0 n row col || rowOn x0 y0 (s.byteAt (addrAtI s n)) n 8 row col) := by
  simp [spriteOn, rowOn, pixelOn, addrAtI, List.range_succ]

/-- The cell lies on the frame row of one of the sprite's rows. -/
theorem row_of_spriteOn {s : State} {x0 y0 : Byte} {n : Nat} {row : Fin 32} {col : Fin 64}
    (h : spriteOn s x0 y0 n row col = true) : ∃ r < n, row.val = (y0.toNat + r) % 32 := by
  simp only [spriteOn, List.any_eq_true, List.mem_range, Bool.and_eq_true, decide_eq_true_eq] at h
  obtain ⟨r, hr, k, -, ⟨hrow, -⟩, -⟩ := h
  exact ⟨r, hr, hrow⟩

/-- One row of the loop is one blit, of the byte read at I + r (R162). -/
theorem drawRow_eq (x0 y0 : Byte) (r : Nat) (q : State × Bool) :
    ((drawRow x0 y0 r q).1.fb, (drawRow x0 y0 r q).2)
      = blitRow x0 y0 (q.1.byteAt (addrAtI q.1 r)) r 8 (q.1.fb, q.2) := by
  simp [drawRow, memRead_eq]

/-- A sprite is its rows: up to 32 of them fall on different rows of the frame. -/
theorem drawRows_blits (x0 y0 : Byte) {n : Nat} (hn : n ≤ 32) (s : State) (hit : Bool) :
    Blits (spriteOn s x0 y0 n) (s.fb, hit)
      ((drawRows x0 y0 n (s, hit)).1.fb, (drawRows x0 y0 n (s, hit)).2) := by
  induction n with
  | zero => exact .refl _
  | succ n ih =>
    have hi : (drawRows x0 y0 n (s, hit)).1.i = s.i := drawRows_frame x0 y0 n _ .i (by decide)
    have hbyte : (drawRows x0 y0 n (s, hit)).1.byteAt (addrAtI (drawRows x0 y0 n (s, hit)).1 n)
        = s.byteAt (addrAtI s n) := by
      rw [addrAtI, hi]; exact drawRows_frame x0 y0 n _ .mem (by decide) _
    rw [drawRows_succ, drawRow_eq, hbyte]
    refine (ih (by omega)).trans (blitRow_blits x0 y0 _ n (by decide) _) (spriteOn_succ s x0 y0 n)
      fun row col hsprite => ?_
    obtain ⟨r, hr, hrow⟩ := row_of_spriteOn hsprite
    rw [← Bool.not_eq_true]
    intro hon
    obtain ⟨k, -, hpixel⟩ := List.any_eq_true.mp hon
    obtain ⟨⟨hrow', -⟩, -⟩ := pixelOn_iff.mp hpixel
    have hsame : (y0.toNat + r) % 32 = (y0.toNat + n) % 32 := hrow.symm.trans (congrArg Fin.val hrow')
    omega

/-! ## DRW and CLS -/

/-- The exact sums I to I + n - 1 leave memory when the last of them does (R40). -/
theorem anyAbove_addrAtI (s : State) (n : Nat) :
    anyAbove ((List.range n).map (addrAtI s)) = decide (n ≠ 0 ∧ s.i.toNat + n - 1 > 0xFFF) := by
  rw [Bool.eq_iff_iff, anyAbove_iff, decide_eq_true_iff]
  simp only [List.mem_map, List.mem_range, addrAtI]
  constructor
  · rintro ⟨_, ⟨k, hk, rfl⟩, habove⟩; omega
  · rintro ⟨hn, habove⟩; exact ⟨_, ⟨n - 1, by omega, rfl⟩, by omega⟩

/-- Settles O39: the draw loop is one blit of the sprite, and its hit is what goes into VF. -/
theorem drwXorsTheSprite : Obligations.DrwXorsTheSprite := by
  intro x y n s
  have hexec := exec_drw x y n s
  obtain ⟨hcell, hhit⟩ := drawRows_blits (s.getV x) (s.getV y) (n := n.toNat) (by omega) s false
  have hcollides : (drawRows (s.getV x) (s.getV y) n.toNat (s, false)).2 = true
      ↔ SpriteCollides s (s.getV x) (s.getV y) n.toNat := by simpa [SpriteCollides] using hhit
  refine ⟨_, hexec, hcell, fun hc => ?_, fun hc => ?_, fun r hr => ?_, ?_, ?_, exec_frame hexec⟩
  · rw [getV_nextPC, getV_raiseFrameChanged, getV_setFlag, hcollides.mpr hc]; rfl
  · rw [getV_nextPC, getV_raiseFrameChanged, getV_setFlag, Bool.eq_false_iff.mpr (mt hcollides.mp hc)]; rfl
  · exact exec_getV hexec (by simpa [regsWrittenBy] using hr)
  · have hn : n ≠ 0 ↔ n.toNat ≠ 0 := by rw [ne_eq, ← BitVec.toNat_inj]; rfl
    rw [exec_ev hexec]
    simp only [Events.access, dataAddrs, draws, anyAbove_addrAtI, Bool.or_true, hn]
  · have hpc : (drawRows (s.getV x) (s.getV y) n.toNat (s, false)).1.pc = s.pc :=
      drawRows_frame _ _ _ _ .pc (by decide)
    rw [nextPC_pc, raiseFrameChanged_pc, setFlag_pc, hpc]

/-- The sprite depends on I and memory alone. -/
theorem spriteOn_congr {s t : State} (hi : t.i = s.i) (hmem : ∀ a, t.byteAt a = s.byteAt a) (x0 y0 : Byte)
    (n : Nat) (row : Fin 32) (col : Fin 64) :
    spriteOn t x0 y0 n row col = spriteOn s x0 y0 n row col := by
  simp only [spriteOn, hi, hmem]

/-- Settles O40: the second draw XORs the same sprite, and meets a 1 cell exactly where the first made one out
of a 0. -/
theorem drawingTwiceRestoresTheFrame : Obligations.DrawingTwiceRestoresTheFrame := by
  intro x y x' y' n s t h hx hy
  obtain ⟨_, ht, hfirst, -⟩ := drwXorsTheSprite x y n s
  obtain rfl := eq_of_exec_next h ht
  obtain ⟨u, hu, hsecond, hflag, hnoflag, -⟩ := drwXorsTheSprite x' y' n t
  have hsprite := spriteOn_congr (exec_frame h .i (by simp [writesOf]))
    (exec_frame h .mem (by simp [writesOf])) (s.getV x) (s.getV y) n.toNat
  rw [hx, hy] at hsecond hflag hnoflag
  refine ⟨u, hu, fun row col => ?_, ?_⟩
  · rw [hsecond, hfirst, hsprite, Bool.xor_assoc, Bool.xor_self, Bool.xor_false]
  · have hflag_iff : u.getV 15 = 1 ↔ SpriteCollides t (s.getV x) (s.getV y) n.toNat := by
      refine ⟨fun h1 => ?_, hflag⟩
      by_contra hno
      rw [hnoflag hno] at h1
      exact absurd h1 (by decide)
    rw [hflag_iff, SpriteCollides]
    refine exists_congr fun row => exists_congr fun col => ?_
    rw [hsprite, hfirst]
    exact and_congr_left fun hon => by rw [hon]; simp

/-- Settles O38: every cell of the cleared frame is 0. -/
theorem clsClearsEveryCell : Obligations.ClsClearsEveryCell := fun s =>
  ⟨_, exec_cls s, fun row col => by simp [Frame.cell, clearFrame], rfl, exec_frame (exec_cls s)⟩

end Sys2Proof.Machine
end

section
/-!
The memory instructions (spec/46_memory_ops.md), what the next fetch sees of them (R52), and loading and reset
(spec/70_reset_and_hazards.md).
-/

namespace Sys2Proof.Machine

/-! ## The digits of FX33 -/

theorem toNat_decimalDigit (b : Byte) (d : Nat) : (decimalDigit b d).toNat = b.toNat / d % 10 := by
  rw [decimalDigit, BitVec.toNat_ofNat, Nat.mod_eq_of_lt (by omega)]

/-- Each digit is at its exact address where that is in range; the three addresses differ (R200). -/
theorem byteAt_storeDigits {k : Nat} (hk : k < 3) {s : State} (ha : addrAtI s k ≤ 0xFFF) (b : Byte) :
    (storeDigits b s).byteAt (addrAtI s k) = decimalDigit b (10 ^ (2 - k)) := by
  simp only [storeDigits, byteAt_memWrite]
  have hne : ∀ j, addrAtI s k = addrAtI s j ↔ k = j := fun j => by simp [addrAtI]
  simp only [hne]
  interval_cases k <;> simp [ha]

theorem byteAt_storeDigits_of_ne {s : State} {a : Nat} (h : ∀ k < 3, a ≠ addrAtI s k) (b : Byte) :
    (storeDigits b s).byteAt a = s.byteAt a := by
  simp [storeDigits, h 0, h 1, h 2]

/-- The three digits are a base-ten number below 256, so the hundreds need no reduction. -/
theorem toNat_byteAt_ldB {k : Nat} (hk : k < 3) {s t : State} {x : Reg} (h : exec (.ldB x) s = .next t)
    (ha : addrAtI s k ≤ 0xFFF) :
    (t.byteAt (addrAtI s k)).toNat = (s.getV x).toNat / 10 ^ (2 - k) % 10 := by
  obtain rfl := eq_of_exec_next h (exec_ldB x s)
  have hbyte : (nextPC (storeDigits (s.getV x) s)).byteAt (addrAtI s k)
      = decimalDigit (s.getV x) (10 ^ (2 - k)) := byteAt_storeDigits hk ha _
  rw [hbyte, toNat_decimalDigit]

/-- Settles O47: the stores and the frame of the three checked writes. -/
theorem ldBStoresTheDigits : Obligations.LdBStoresTheDigits := by
  intro x s
  have hexec := exec_ldB x s
  refine ⟨_, hexec, fun ha => ?_, fun ha => ?_, fun ha => ?_, fun a h0 h1 h2 => ?_, ?_, ?_,
    exec_frame hexec⟩
  · have := (s.getV x).isLt
    rw [toNat_byteAt_ldB (by decide) hexec ha]; omega
  · exact toNat_byteAt_ldB (by decide) hexec ha
  · rw [toNat_byteAt_ldB (by decide) hexec ha, pow_zero, Nat.div_one]
  · refine byteAt_storeDigits_of_ne (fun k hk => ?_) _
    interval_cases k <;> assumption
  · rw [exec_ev hexec]
    simp [Events.access, draws, dataAddrs, anyAbove_addrAtI]
  · exact congrArg (· + 2) ((storeDigits_frame _ s) .pc (by decide))

/-! ## Blocks -/

theorem anyAbove_block (x : Reg) (s : State) :
    anyAbove ((List.range (x.val + 1)).map (blockAddr s)) = true
      ↔ ∃ r, r ≤ x ∧ blockAddr s r.val > 0xFFF := by
  rw [anyAbove_iff]
  simp only [List.mem_map, List.mem_range]
  constructor
  · rintro ⟨_, ⟨k, hk, rfl⟩, habove⟩
    exact ⟨⟨k, by omega⟩, Fin.le_def.mpr (by simp only; omega), habove⟩
  · rintro ⟨r, hr, habove⟩
    exact ⟨_, ⟨r.val, Nat.lt_succ_of_le hr, rfl⟩, habove⟩

/-- What `FX55` leaves in range at each of its addresses (R203). -/
theorem byteAt_stRegs {x r : Reg} {s t : State} (h : exec (.stRegs x) s = .next t) (hr : r ≤ x)
    (ha : blockAddr s r.val ≤ 0xFFF) : t.byteAt (blockAddr s r.val) = s.getV r := by
  obtain rfl := eq_of_exec_next h (exec_stRegs x s)
  have hstored := byteAt_storeRegs (n := x.val + 1) (Nat.lt_succ_of_le hr) (by omega) ha
  rw [blockReg_val] at hstored
  exact hstored

/-- What `FX65` puts in each of its registers (R206). -/
theorem getV_ldRegs {x r : Reg} {s t : State} (h : exec (.ldRegs x) s = .next t) (hr : r ≤ x) :
    t.getV r = s.byteAt (blockAddr s r.val) := by
  rw [eq_of_exec_next h (exec_ldRegs x s), getV_nextPC, getV_loadRegs (by omega),
    if_pos (Nat.lt_succ_of_le hr)]

/-- Settles O48: the store loop's bytes, I and events, at the block addresses. -/
theorem stRegsStoresTheBlock : Obligations.StRegsStoresTheBlock := by
  intro x s
  have hexec := exec_stRegs x s
  refine ⟨_, hexec, fun r => byteAt_stRegs hexec, fun a ha => ?_, storeRegs_i (x.val + 1) s, ?_, ?_, ?_, ?_,
    exec_frame hexec⟩
  · refine byteAt_storeRegs_of_ne fun k hk => ?_
    exact ha ⟨k, by omega⟩ (Fin.le_def.mpr (by simp only; omega))
  · rw [exec_ev hexec]; simp only [Events.access, dataAddrs, Bool.or_eq_true, anyAbove_block]
  · rw [exec_ev hexec]; rfl
  · rw [exec_ev hexec]; exact Bool.or_false _
  · exact congrArg (· + 2) ((storeRegs_frame _ s) .pc (by decide))

/-- Settles O49: the load loop's registers, I and events, at the block addresses. -/
theorem ldRegsLoadsTheBlock : Obligations.LdRegsLoadsTheBlock := by
  intro x s
  have hexec := exec_ldRegs x s
  refine ⟨_, hexec, fun r hr => ?_, fun r hr => ?_, loadRegs_i (x.val + 1) s, ?_, ?_, ?_, ?_,
    exec_frame hexec⟩
  · rw [getV_ldRegs hexec hr]
    split
    case isTrue habove => exact byteAt_outOfRange s habove
    case isFalse hin => exact byteAt_inRange s (Nat.le_of_not_lt hin)
  · exact exec_getV hexec (by simpa [regsWrittenBy] using hr)
  · rw [exec_ev hexec]; simp only [Events.access, dataAddrs, Bool.or_eq_true, anyAbove_block]
  · rw [exec_ev hexec]; rfl
  · rw [exec_ev hexec]; exact Bool.or_false _
  · exact congrArg (· + 2) ((loadRegs_frame _ s) .pc (by decide))

/-- Settles O50: store and load use the same block addresses, which are in range and so do not wrap. -/
theorem storedBlockLoadsBack : Obligations.StoredBlockLoadsBack := by
  intro x s t u h hin hi hmem
  refine ⟨_, exec_ldRegs x u, fun r hr => ?_⟩
  have haddr : blockAddr u r.val = blockAddr s r.val := by rw [blockAddr, blockAddr, hi]
  have hle : blockAddr s r.val ≤ 0xFFF := by
    have := Fin.le_def.mp hr
    rw [blockAddr]; omega
  rw [getV_ldRegs (exec_ldRegs x u) hr, haddr, hmem]
  exact byteAt_stRegs h hr hle

/-! ## What the next fetch sees (R52) -/

/-- The fetched word is the byte at PC times 256 plus the byte after it (R44, R82). -/
theorem fetchedWord_toNat (s : State) : (fetchedWord s).toNat
    = 256 * (s.byteAt s.pc.toNat).toNat + (s.byteAt (s.pc.toNat + 1)).toNat := by
  have hlo := (s.byteAt (s.pc.toNat + 1)).isLt
  rw [fetchedWord, wordOfBytes, BitVec.toNat_append, ← Nat.shiftLeft_add_eq_or_of_lt hlo,
    Nat.shiftLeft_eq, Nat.mul_comm]

/-- A byte at PC is the fetched word's high byte, a byte at PC + 1 its low byte. -/
theorem fetchedWord_of_byteAt {t : State} {a b : Nat} (h : (t.byteAt a).toNat = b) :
    (a = t.pc.toNat → (fetchedWord t).toNat / 256 = b)
      ∧ (a = t.pc.toNat + 1 → (fetchedWord t).toNat % 256 = b) := by
  have hlo := (t.byteAt (t.pc.toNat + 1)).isLt
  rw [fetchedWord_toNat]
  constructor <;> rintro rfl <;> omega

theorem blockAddr_afterFetch (s : State) (k : Nat) : blockAddr (afterFetch s) k = blockAddr s k := rfl

theorem addrAtI_afterFetch (s : State) (k : Nat) : addrAtI (afterFetch s) k = addrAtI s k := rfl

/-- Settles O51: the stores of O48 and O47, made after the fetch, are in memory when the step ends. -/
theorem storesAreFetchedByTheNextStep : Obligations.StoresAreFetchedByTheNextStep := by
  intro x s t h
  refine ⟨fun hi r hr hin => ?_, fun hi k hk hin => ?_⟩
  · obtain ⟨u, hu, rfl⟩ := step_of_executed h hi
    have hstored := byteAt_stRegs hu hr (by rwa [blockAddr_afterFetch])
    exact fetchedWord_of_byteAt (t := endStep u) (congrArg BitVec.toNat hstored)
  · obtain ⟨u, hu, rfl⟩ := step_of_executed h hi
    have hstored := toNat_byteAt_ldB hk hu (by rwa [addrAtI_afterFetch])
    exact fetchedWord_of_byteAt (t := endStep u) hstored

/-! ## Placing a word at PC -/

theorem toNat_highByte (w : Word) : (highByte w).toNat = w.toNat / 256 := by
  have := w.isLt
  rw [highByte, BitVec.extractLsb'_toNat, Nat.shiftRight_eq_div_pow]; omega

theorem toNat_lowByte (w : Word) : (lowByte w).toNat = w.toNat % 256 := by
  rw [lowByte, BitVec.extractLsb'_toNat, Nat.shiftRight_zero]

theorem tableWord_eq (w : Nat) : tableWord 16 w = BitVec.ofNat 16 w := by
  apply BitVec.eq_of_toNat_eq; simp [tableWord]

theorem byteAt_withFetchWord (s : State) (w a : Nat) :
    (s.withFetchWord 16 w).byteAt a
      = if a = s.pc.toNat + 1 ∧ s.pc.toNat + 1 ≤ 0xFFF then lowByte (BitVec.ofNat 16 w)
        else if a = s.pc.toNat ∧ s.pc.toNat ≤ 0xFFF then highByte (BitVec.ofNat 16 w)
        else s.byteAt a := by
  rw [← tableWord_eq, ← byteAt_memWrite, ← byteAt_memWrite]
  exact byteAt_congr rfl a

/-- Of the state, placing a word changes memory and ends a wait, and nothing else. -/
theorem withFetchWord_frame (s : State) (w : Nat) : OnlyChanges [.mem, .wait] s (s.withFetchWord 16 w) := by
  apply OnlyChanges.of_fields <;> simp [State.withFetchWord]

theorem decodeTableWord_eq (w : Nat) : decodeTableWord 16 w = decodeWord (BitVec.ofNat 16 w) := by
  rw [decodeTableWord, tableBytes, tableWord_eq]
  simp only [decode, wordOfBytes_high_low]
  cases decodeWord (BitVec.ofNat 16 w) <;> rfl

/-- Settles O13: the word is its two bytes, and `withFetchWord` is two stores in range. -/
theorem placedWordIsFetched : Obligations.PlacedWordIsFetched := by
  refine ⟨fetchedWord_toNat, fun s i hhi hlo => ?_, fun s w hpc => ?_⟩
  · have hword : fetchedWord s = encodeWord i := by
      apply BitVec.eq_of_toNat_eq
      rw [fetchedWord_toNat, hhi, hlo]; omega
    rw [hword, decodeWord_encodeWord]
  · have hhi : (s.withFetchWord 16 w).byteAt s.pc.toNat = highByte (BitVec.ofNat 16 w) := by
      rw [byteAt_withFetchWord, if_neg (by omega), if_pos ⟨rfl, by omega⟩]
    have hlo : (s.withFetchWord 16 w).byteAt (s.pc.toNat + 1) = lowByte (BitVec.ofNat 16 w) := by
      rw [byteAt_withFetchWord, if_pos ⟨rfl, hpc⟩]
    have hframe := withFetchWord_frame s w
    have hpc' : (s.withFetchWord 16 w).pc = s.pc := hframe .pc (by decide)
    refine ⟨?_, ?_, ?_, decodeTableWord_eq w, fun a ha ha' => ?_, rfl, ?_, hframe⟩
    · rw [hhi, toNat_highByte, BitVec.toNat_ofNat]; omega
    · rw [hlo, toNat_lowByte, BitVec.toNat_ofNat]; omega
    · rw [fetchedWord, hpc', hhi, hlo, wordOfBytes_high_low]
    · rw [byteAt_withFetchWord, if_neg fun h => ha' h.1, if_neg fun h => ha h.1]
    · exact (memWrite_waitX _ _ _).trans (memWrite_waitX _ _ _)

/-! ## Loading -/

/-- Storing a program touches memory and, for what does not fit, the event (R253, R255). -/
theorem storeProgram_frame (bytes : List Byte) (a : Nat) (s : State) :
    OnlyChanges [.mem, .ev] s (storeProgram a bytes s) := by
  induction bytes generalizing a s with
  | nil => exact .refl _ s
  | cons b rest ih => exact (memWrite_frame a b s).trans (ih (a + 1) _)

/-- Every byte after a program is stored from address a on (R253). -/
theorem byteAt_storeProgram (bytes : List Byte) (a : Nat) (s : State) (c : Nat) :
    (storeProgram a bytes s).byteAt c
      = if a ≤ c ∧ c < a + bytes.length ∧ c ≤ 0xFFF then bytes.getD (c - a) 0 else s.byteAt c := by
  induction bytes generalizing a s with
  | nil => rw [if_neg (by simp only [List.length_nil]; omega)]; rfl
  | cons b rest ih =>
    rw [storeProgram, ih, byteAt_memWrite]
    by_cases hc : c = a
    · subst hc
      rw [if_neg (by omega), Nat.sub_self, List.getD_cons_zero]
      simp
    · have hrest : a + 1 ≤ c ∧ c < a + 1 + rest.length ∧ c ≤ 0xFFF
          ↔ a ≤ c ∧ c < a + (b :: rest).length ∧ c ≤ 0xFFF := by simp only [List.length_cons]; omega
      simp only [hrest, hc, false_and, if_false]
      split
      case isFalse => rfl
      case isTrue h =>
        have hoff : c - a = c - (a + 1) + 1 := by omega
        rw [hoff, List.getD_cons_succ]

/-- Storing a program reports when its last byte does not fit (R255). -/
theorem storeProgram_ev (bytes : List Byte) (a : Nat) (s : State) :
    (storeProgram a bytes s).ev = { s.ev with
      addrOor := s.ev.addrOor || decide (bytes.length ≠ 0 ∧ 0xFFF < a + bytes.length - 1) } := by
  induction bytes generalizing a s with
  | nil => simp [storeProgram]
  | cons b rest ih =>
    have hlast : (0xFFF < a ∨ rest.length ≠ 0 ∧ 0xFFF < a + 1 + rest.length - 1)
        ↔ ((b :: rest).length ≠ 0 ∧ 0xFFF < a + (b :: rest).length - 1) := by
      simp only [List.length_cons]; omega
    rw [storeProgram, ih, memWrite_ev]
    simp only [Bool.or_assoc, ← Bool.decide_or, hlast]

theorem loadBytes_frame (bytes : List Byte) (s : State) : OnlyChanges [.mem, .ev] s (loadBytes bytes s) :=
  ((clearEvents_frame s).mono (by decide)).trans (storeProgram_frame bytes _ _)

/-- Settles O5: the program loop from 0x200 on, after the events are cleared. -/
theorem loadPlacesTheProgram : Obligations.LoadPlacesTheProgram := by
  intro bytes s
  refine ⟨fun a => byteAt_storeProgram bytes 0x200 (clearEvents s) a, ?_, loadBytes_frame bytes s,
    fun hstepped hloaded => ?_⟩
  · have hlong : (bytes.length ≠ 0 ∧ 0xFFF < 0x200 + bytes.length - 1) ↔ bytes.length > 3584 := by omega
    rw [loadBytes, storeProgram_ev]
    simp only [clearEvents_ev, Events.clear, Bool.false_or, hlong]
  · simp [load, hstepped, hloaded]

/-- Settles O6: every step sets `stepped`, and reset clears it with `loaded`. -/
theorem loadIsRefusedAfterAStep : Obligations.LoadIsRefusedAfterAStep := by
  refine ⟨fun bytes s t h => ?_, fun bytes s => ⟨_, rfl⟩⟩
  obtain ⟨u, rfl, -⟩ := step_before_tick h
  rfl

theorem load_next {bytes : List Byte} {s t : State} (h : load bytes s = .next t) :
    s.stepped = false ∧ s.loaded = false ∧ t = { loadBytes bytes s with loaded := true } := by
  cases hstepped : s.stepped <;> cases hloaded : s.loaded <;> simp [load, hstepped, hloaded] at h
  exact ⟨rfl, rfl, h.symm⟩

theorem loaded_notMem_writesOf (i : Instr) : .loaded ∉ writesOf i := by
  cases i <;> simp [writesOf]

/-- Settles O57: `load` sets `loaded`, which no step and no lining up of inputs clears. -/
theorem secondLoadIsRefused : Obligations.SecondLoadIsRefused := by
  refine ⟨fun bytes s t h bytes' => ?_, fun s hloaded bytes t h => ?_, fun s t h => ?_, fun _ _ => rfl⟩
  · obtain ⟨hstepped, -, rfl⟩ := load_next h
    obtain ⟨-, -, hkept⟩ := loadBytes_frame bytes s .host (by decide)
    have hnot : (loadBytes bytes s).stepped = false := hkept.trans hstepped
    simp [load, hnot]
  · obtain ⟨-, hno, -⟩ := load_next h
    rw [hloaded] at hno; cases hno
  · obtain ⟨u, rfl, ⟨-, hf⟩ | ⟨i, -, hu⟩⟩ := step_before_tick h
    · exact hf .loaded (by decide)
    · exact exec_frame hu .loaded (loaded_notMem_writesOf i)

/-! ## Reset -/

/-- Settles O2: both resets give the reset state but for the host's side. -/
theorem resetLeavesTheTableOfValues : Obligations.ResetLeavesTheTableOfValues := by
  intro s hs
  have hbytes : ∀ a, 80 ≤ a → s.byteAt a = 0 := fun a ha => by
    rw [byteAt_of_reset hs, Memory.resetByte_above ha]
  obtain ⟨inputs, samples, rfl⟩ : ∃ inputs samples,
      s = { State.reset with inputs := inputs, samples := samples } := by
    obtain rfl | ⟨u, rfl⟩ := hs
    · exact ⟨_, _, rfl⟩
    · exact ⟨_, _, rfl⟩
  exact ⟨rfl, rfl, fun r => by simp [State.getV, State.reset], rfl,
    fun k => by simp [State.slot, State.reset], rfl, rfl, hbytes,
    fun row col => by simp [Frame.cell, State.reset], rfl, rfl, rfl, rfl, rfl⟩

/-- Settles O52: memory lists nothing, every slot is 0 and nothing is awaited. -/
theorem invariantsHoldAtReset : Obligations.InvariantsHoldAtReset := by
  intro s hs
  obtain ⟨-, -, -, -, hstack, -, -, -, -, hwait, -⟩ := resetLeavesTheTableOfValues s hs
  refine ⟨?_, fun k => ?_, fun h => ?_⟩
  · have hmem : s.mem = [] := by obtain rfl | ⟨u, rfl⟩ := hs <;> rfl
    rw [MemoryCanonical, hmem]; exact Memory.wf_nil
  · rw [hstack]; decide
  · rw [hwait] at h; cases h

end Sys2Proof.Machine
end

section
/-!
Results of single instructions (spec/41_flow.md, spec/42_load_index_random.md, spec/43_alu.md,
spec/45_keys_timers.md), each from what its shared operation does.
-/

namespace Sys2Proof.Machine

/-! ## Control transfer -/

/-- Settles O22: RET is a pop and a jump to what it popped. -/
theorem retPopsIntoPc : Obligations.RetPopsIntoPc := fun s =>
  ⟨_, exec_ret s, popPointer_toNat s.sp, rfl, fun _ => rfl, exec_frame (exec_ret s)⟩

/-- Settles O25: CALL is a push of PC + 2 and a jump. -/
theorem callPushesTheReturnAddress : Obligations.CallPushesTheReturnAddress := by
  intro nnn s
  have hexec := exec_call nnn s
  have hslot := slot_push (s.pc + 2) s
  refine ⟨_, hexec, toNat_immWord nnn, ?_, fun k hk => ?_, BitVec.toNat_add s.sp 1, exec_frame hexec⟩
  · exact (hslot s.sp).trans (if_pos rfl)
  · exact (hslot k).trans (if_neg hk)

/-- Settles O26: the pop finds the pushed slot, unless the push wrapped the pointer to 0. -/
theorem callThenRetReturns : Obligations.CallThenRetReturns := by
  intro nnn s
  refine ⟨_, _, exec_call nnn s, exec_ret _, ?_⟩
  have hsp : (jumpTo (immWord nnn) (push (s.pc + 2) s)).sp = s.sp + 1 := rfl
  have hslot : ∀ k, (jumpTo (immWord nnn) (push (s.pc + 2) s)).slot k
      = if k = s.sp then s.pc + 2 else s.slot k := slot_push _ s
  rw [jumpTo_pc, jumpTo_sp, pop_fst, pop_sp, hslot, hsp]
  split
  case isTrue h15 =>
    rw [h15]
    exact ⟨rfl, rfl⟩
  case isFalse h15 =>
    rw [popPointer_add_one h15, if_pos rfl]
    exact ⟨rfl, rfl⟩

/-! ## Skips -/

/-- Settles O27: both end in `skipIf`. -/
theorem immediateSkips : Obligations.ImmediateSkips := fun x nn s =>
  ⟨⟨_, exec_seImm x nn s, skipIf_frame _ s, by simp⟩, ⟨_, exec_sneImm x nn s, skipIf_frame _ s, by simp⟩⟩

/-- Settles O28: both end in `skipIf`. -/
theorem registerSkips : Obligations.RegisterSkips := fun x y s =>
  ⟨⟨_, exec_seReg x y s, skipIf_frame _ s, by simp⟩, ⟨_, exec_sneReg x y s, skipIf_frame _ s, by simp⟩⟩

/-- The key named by a byte is down (R182). -/
theorem keyDown8_iff (keys : BitVec 16) (b : Byte) :
    keyDown8 keys b = true ↔ b.toNat ≤ 15 ∧ keys.getLsbD b.toNat = true := by
  simp [keyDown8]

/-- Settles O29: both end in `skipIf`, on `keyDown8`. -/
theorem keySkips : Obligations.KeySkips := by
  intro x s
  simp only [← keyDown8_iff]
  refine ⟨⟨_, exec_skp x s, skipIf_frame _ s, fun h => ?_, fun h => ?_⟩,
    ⟨_, exec_sknp x s, skipIf_frame _ s, fun h => ?_, fun h => ?_⟩⟩ <;> simp [h]

/-! ## Loads and the index register -/

/-- What an instruction does that ends by writing V[X] and advancing. -/
theorem nextPC_setV_writes (x : Reg) (b : Byte) (s : State) :
    (nextPC (s.setV x b)).getV x = b ∧ (∀ r, r ≠ x → (nextPC (s.setV x b)).getV r = s.getV r)
      ∧ (nextPC (s.setV x b)).pc = s.pc + 2 ∧ OnlyChanges [.pc, .v] s (nextPC (s.setV x b)) :=
  ⟨by simp, fun _ hr => getV_setV_of_ne hr b s, rfl, nextPC_setV_frame x b s⟩

/-- Settles O30: LD_IMM writes V[X] and advances. -/
theorem ldImmLoadsTheByte : Obligations.LdImmLoadsTheByte := fun x nn s =>
  ⟨_, exec_ldImm x nn s, nextPC_setV_writes x nn s⟩

/-- Settles O31: ADD_IMM writes V[X] and advances, and byte addition is modulo 256. -/
theorem addImmAddsWithoutAFlag : Obligations.AddImmAddsWithoutAFlag := by
  intro x nn s
  obtain ⟨hx, hrest⟩ := nextPC_setV_writes x (s.getV x + nn) s
  exact ⟨_, exec_addImm x nn s, by rw [hx]; exact BitVec.toNat_add _ _, hrest⟩

theorem toNat_zeroExtend_byte (b : Byte) : (b.zeroExtend 16).toNat = b.toNat :=
  BitVec.toNat_setWidth_of_le (by decide)

/-- Settles O32: the three write I and advance. -/
theorem indexRegisterInstructions : Obligations.IndexRegisterInstructions := by
  refine ⟨fun nnn s => ⟨_, exec_ldI nnn s, toNat_immWord nnn, rfl, nextPC_setI_frame _ s⟩,
    fun x s => ⟨_, exec_addI x s, ?_, rfl, nextPC_setI_frame _ s⟩,
    fun x s => ⟨_, exec_ldF x s, ?_, rfl, nextPC_setI_frame _ s⟩⟩
  · rw [nextPC_i, setI_i, BitVec.toNat_add, toNat_zeroExtend_byte]
  · rw [nextPC_i, setI_i, toNat_glyphAddr, Nat.mul_comm]

/-- Settles O33: RND writes V[X] and advances, and the bits of NN choose those of the input. -/
theorem rndMasksTheRandomByte : Obligations.RndMasksTheRandomByte := by
  intro x nn s
  obtain ⟨hx, hrest⟩ := nextPC_setV_writes x (nn &&& s.rnd) s
  refine ⟨_, exec_rnd x nn s, fun k _ => ?_, hrest⟩
  rw [hx, BitVec.getLsbD_and]
  cases nn.getLsbD k <;> simp

/-! ## ALU family -/

/-- Settles O34: the four write V[X] and advance. -/
theorem movAndLogic : Obligations.MovAndLogic := fun x y s =>
  ⟨⟨_, exec_mov x y s, nextPC_setV_writes x _ s⟩, ⟨_, exec_or x y s, nextPC_setV_writes x _ s⟩,
    ⟨_, exec_and x y s, nextPC_setV_writes x _ s⟩, ⟨_, exec_xor x y s, nextPC_setV_writes x _ s⟩⟩

/-- What a flag-setting instruction does: the result to V[X] unless that is VF, and then the flag (R140). -/
theorem aluResultFlag_writes {x : Reg} {b : Byte} {c : Bool} {s : State} {n f : Nat} (hn : b.toNat = n)
    (hf : (flagByte c).toNat = f) :
    (x ≠ 15 → ((aluResultFlag x b c s).getV x).toNat = n) ∧ ((aluResultFlag x b c s).getV 15).toNat = f
      ∧ (∀ r, r ≠ x → r ≠ 15 → (aluResultFlag x b c s).getV r = s.getV r)
      ∧ (aluResultFlag x b c s).pc = s.pc + 2 ∧ OnlyChanges [.pc, .v] s (aluResultFlag x b c s) := by
  refine ⟨fun hx => ?_, ?_, fun r hr hvf => ?_, rfl, aluResultFlag_frame x b c s⟩
  · rw [getV_aluResultFlag, if_neg hx, if_pos rfl, hn]
  · rw [getV_aluResultFlag, if_pos rfl, hf]
  · rw [getV_aluResultFlag, if_neg hvf, if_neg hr]

/-- Settles O35: the exact sum's low byte and its carry. -/
theorem addSetsCarry : Obligations.AddSetsCarry := by
  intro x y s
  refine ⟨_, exec_add x y s, aluResultFlag_writes (BitVec.toNat_ofNat _ _) ?_⟩
  rw [flagByte_toNat]; simp only [carry_iff]

/-- A subtract flag, read as the absence of a borrow. -/
theorem toNat_flagByte_noBorrow (a b : Byte) :
    (flagByte (noBorrow a b)).toNat = if a.toNat < b.toNat then 0 else 1 := by
  rw [flagByte_toNat]
  simp only [noBorrow_iff, ← Nat.not_lt, ite_not]

/-- Settles O36: the exact difference modulo 256 and its borrow, both ways round. -/
theorem subAndSubnSetNotBorrow : Obligations.SubAndSubnSetNotBorrow := fun x y s =>
  ⟨⟨_, exec_sub x y s, aluResultFlag_writes (ofInt_exactDiff_toNat _ _) (toNat_flagByte_noBorrow _ _)⟩,
    ⟨_, exec_subn x y s, aluResultFlag_writes (ofInt_exactDiff_toNat _ _) (toNat_flagByte_noBorrow _ _)⟩⟩

theorem toNat_shiftRight_one (b : Byte) : (b >>> 1).toNat = b.toNat / 2 := by
  rw [BitVec.toNat_ushiftRight, Nat.shiftRight_one]

theorem toNat_shiftLeft_one (b : Byte) : (b <<< 1).toNat = b.toNat * 2 % 256 := by
  rw [BitVec.toNat_shiftLeft, Nat.shiftLeft_eq]

theorem toNat_flagByte_lowBit (b : Byte) : (flagByte (lowBit b)).toNat = b.toNat % 2 := by
  revert b; decide

theorem toNat_flagByte_highBit (b : Byte) : (flagByte (highBit b)).toNat = b.toNat / 128 := by
  revert b; decide

/-- Settles O37: SHR is one flagged result; SHL is one after the same byte went to V[X]. -/
theorem shiftsTakeVy : Obligations.ShiftsTakeVy := by
  intro x y s
  refine ⟨⟨_, exec_shr x y s,
    aluResultFlag_writes (toNat_shiftRight_one _) (toNat_flagByte_lowBit _)⟩, ?_⟩
  have hexec := exec_shl x y s
  obtain ⟨hy, hflag, hkept, hpc, -⟩ := aluResultFlag_writes (x := y) (s := s.setV x (s.getV y <<< 1))
    (toNat_shiftLeft_one (s.getV y)) (toNat_flagByte_highBit (s.getV y))
  refine ⟨_, hexec, fun hx => ?_, hy, hflag, fun r hrx hry hr => ?_, hpc, exec_frame hexec⟩
  · by_cases hxy : x = y
    · subst hxy; exact hy hx
    · rw [hkept x hxy hx, getV_setV, if_pos rfl, toNat_shiftLeft_one]
  · rw [hkept r hry hr, getV_setV_of_ne hrx]

/-! ## Keys and timers -/

/-- Settles O41 -/
theorem ldVxKTakesAKeyOrWaits : Obligations.LdVxKTakesAKeyOrWaits := by
  intro x s
  have hexec := exec_ldVxK x s
  refine ⟨_, hexec, fun r hr => exec_getV hexec (by simpa [regsWrittenBy] using hr), exec_frame hexec, ?_⟩
  by_cases hkeys : s.keys = 0
  · rw [if_pos hkeys, if_neg (not_not_intro hkeys)]
    exact ⟨rfl, rfl, rfl, rfl⟩
  · obtain ⟨hdown, hlower, -⟩ := lowestKey_spec hkeys
    rw [if_neg hkeys, if_pos hkeys, takeKey_getV, if_pos rfl]
    exact ⟨rfl, rfl, rfl, hdown, hlower⟩

/-- Settles O45: FX07 writes V[X], the other two a timer, and all advance. -/
theorem timerMoves : Obligations.TimerMoves := fun x s =>
  ⟨⟨_, exec_ldVxDt x s, nextPC_setV_writes x s.dt s⟩,
    ⟨_, exec_ldDtVx x s, rfl, rfl, exec_frame (exec_ldDtVx x s)⟩,
    ⟨_, exec_ldStVx x s, rfl, rfl, exec_frame (exec_ldStVx x s)⟩⟩

end Sys2Proof.Machine
end

section
/-!
Steps that execute no instruction, and runs of many steps: the wait for a key (R183, R184), the delay timer
(R23) and the jump to itself (R263).
-/

namespace Sys2Proof.Machine

/-! ## Unknown opcodes -/

/-- Settles O15: the step is `execUnknown` between the fetch and the tick. -/
theorem unknownOpcodeIsAReportedNoOp : Obligations.UnknownOpcodeIsAReportedNoOp := fun s ha hd =>
  ⟨_, step_of_unknown ha hd, rfl, rfl, rfl, tickDown_toNat s.dt, tickDown_toNat s.st,
    (execUnknown_frame (afterFetch s)).step.mono (by simp [stepParts])⟩

/-- Settles O16: above memory the word is 0x0000, which is unknown. -/
theorem fetchAboveMemoryIsReported : Obligations.FetchAboveMemoryIsReported := by
  intro s ha hpc
  have hword := fetchedWord_outOfRange s hpc
  have hd : decodeWord (fetchedWord s) = none := by rw [hword, decodeWord_zero]
  have hstep := step_of_unknown ha hd
  refine ⟨hword, _, hstep, rfl, ?_, (execUnknown_frame (afterFetch s)).step.mono (by simp [stepParts])⟩
  rw [step_ev_of_unknown hstep ha ((executed_of_not_awaiting ha).trans hd)]
  simp [Nat.le_of_lt hpc]

/-! ## The waiting step -/

theorem step_of_wait_noKey {s : State} (ha : s.awaiting = true) (hkeys : s.keys = 0) :
    step s = .next (endStep (beginStep s)) := by
  rw [step_of_awaiting ha, waitStep_of_noKey (s := beginStep s) hkeys]

theorem step_of_wait_key {s : State} (ha : s.awaiting = true) (hkeys : s.keys ≠ 0) :
    step s = .next (endStep (takeKey s.waitX (beginStep s))) := by
  rw [step_of_awaiting ha, waitStep_of_key (s := beginStep s) hkeys]; rfl

/-- What a step does that only clears the events and ticks. -/
theorem endStep_beginStep_frame (s : State) : OnlyChanges [.dt, .st, .ev, .host] s (endStep (beginStep s)) :=
  ((beginStep_frame s).mono (by decide)).trans ((endStep_frame _).mono (by decide))

/-- Settles O42: without a key the step only ticks, with one it takes the lowest. -/
theorem waitingStepTicksOrCompletes : Obligations.WaitingStepTicksOrCompletes := by
  intro s ha
  by_cases hkeys : s.keys = 0
  · refine ⟨_, step_of_wait_noKey ha hkeys, rfl, tickDown_toNat s.dt, tickDown_toNat s.st, fun _ _ => rfl,
      (endStep_beginStep_frame s).mono (by decide), rfl, ?_⟩
    rw [if_pos hkeys]
    exact ⟨ha, rfl, rfl⟩
  · have hframe := step_frame_of_none (step_of_wait_key ha hkeys) (executed_of_awaiting ha)
    have hreg := takeKey_getV s.waitX (s := beginStep s)
    refine ⟨_, step_of_wait_key ha hkeys, rfl, tickDown_toNat s.dt, tickDown_toNat s.st,
      fun r hr => (hreg r).trans (if_neg hr), hframe.mono (by decide), rfl, ?_⟩
    obtain ⟨hdown, hlower, -⟩ := lowestKey_spec hkeys
    have hx : (endStep (takeKey s.waitX (beginStep s))).getV s.waitX = lowestKey s.keys :=
      (hreg s.waitX).trans (if_pos rfl)
    rw [if_neg hkeys, hx]
    exact ⟨rfl, rfl, hdown, hlower⟩

/-- The fetch of an FX0A is in range: its low byte is 0x0A, and out of range it would be 0x00. -/
theorem pc_lt_of_ldVxK {s : State} {x : Reg} (hd : decodeWord (fetchedWord s) = some (.ldVxK x)) :
    s.pc.toNat < 0xFFF := by
  by_contra hpc
  have hlow : ∀ r : Reg, (encodeWord (.ldVxK r)).toNat % 256 = 0x0A := by decide
  have hzero : (s.byteAt (s.pc.toNat + 1)).toNat = 0 := by rw [byteAt_outOfRange s (by omega)]; rfl
  have hword := fetchedWord_toNat s
  rw [← encodeOfDecodeIsTheWord _ _ hd, hzero] at hword
  have := hlow x
  omega

/-- A fetch in range leaves the state as the step's beginning did (R82). -/
theorem afterFetch_of_inRange {s : State} (h : s.pc.toNat < 0xFFF) : afterFetch s = beginStep s := by
  have hpc : decide (0xFFF ≤ s.pc.toNat) = false := by simpa using h
  rw [afterFetch, hpc]; rfl

/-- Executing the FX0A again takes the same key as the wait, or begins the same wait again. -/
theorem exec_ldVxK_again {s : State} (ha : s.awaiting = true) :
    exec (.ldVxK s.waitX) { s with awaiting := false } = .next (waitStep s) := by
  have hsame : { s with awaiting := true } = s := by rw [← ha]
  exact congrArg Host.Outcome.next (if_congr Iff.rfl rfl hsame)

/-- Settles O43: the FX0A is fetched in range, so it finds the state a waiting step finds. -/
theorem waitingStepIsTheInstructionAgain : Obligations.WaitingStepIsTheInstructionAgain := by
  intro s hs
  cases ha : s.awaiting with
  | false => rw [← ha]
  | true =>
    have hd := hs ha
    have hagain := step_of_decoded (s := { s with awaiting := false }) rfl hd
    rw [afterFetch_of_inRange (s := { s with awaiting := false }) (pc_lt_of_ldVxK hd)] at hagain
    rw [step_of_awaiting ha, hagain]
    exact (congrArg (onNext endStep) (exec_ldVxK_again (s := beginStep s) ha)).symm

/-! ## Runs -/

theorem keys_of_inputs {s : State} {now : Inputs} {rest : List Inputs} (h : s.inputs = now :: rest) :
    s.keys = now.keys := by
  simp [State.keys, State.sample, h]

/-- Settles O44: by induction on the number of steps, each of which only ticks. -/
theorem waitHoldsWhileNoKeyIsDown : Obligations.WaitHoldsWhileNoKeyIsDown := by
  intro n
  induction n with
  | zero => exact fun s ha _ _ => ⟨s, rfl, ha, rfl, rfl, rfl, .refl _ s⟩
  | succ n ih =>
    intro s ha hlength hnoKey
    obtain ⟨now, rest, hinputs⟩ := List.exists_cons_of_length_pos (Nat.lt_of_lt_of_le n.succ_pos hlength)
    rw [hinputs] at hlength hnoKey
    have hkeys : s.keys = 0 := (keys_of_inputs hinputs).trans (hnoKey now (by simp))
    have hrest : (endStep (beginStep s)).inputs = rest := congrArg List.tail hinputs
    obtain ⟨t, hrun, hawait, hwaitX, hdt, hst, hframe⟩ := ih (endStep (beginStep s)) ha
      (by rw [hrest]; exact Nat.le_of_succ_le_succ hlength)
      (by rw [hrest]; exact fun i hi => hnoKey i (by simp [hi]))
    rw [endStep_dt, tickDown_toNat] at hdt
    rw [endStep_st, tickDown_toNat] at hst
    refine ⟨t, ?_, hawait, hwaitX, ?_, ?_, (endStep_beginStep_frame s).trans hframe⟩
    · rw [runSteps_succ n (step_of_wait_noKey ha hkeys), hrun]
    · rw [hdt, beginStep_dt]; omega
    · rw [hst, beginStep_st]; omega

/-- Settles O46: by induction on the number of steps, each of which ticks the timer it finds. -/
theorem delayTimerRunsDownByOneAStep : Obligations.DelayTimerRunsDownByOneAStep := by
  intro n
  induction n with
  | zero => exact fun s _ => ⟨s, rfl, rfl⟩
  | succ n ih =>
    intro s hno
    obtain ⟨u, hu⟩ := step_answers_next s
    have hdt := step_dt hu fun x => hno 0 n.succ_pos s x rfl
    obtain ⟨t, ht, hrest⟩ := ih u fun k hk v x hv =>
      hno (k + 1) (Nat.succ_lt_succ hk) v x ((runSteps_succ k hu).trans hv)
    exact ⟨t, (runSteps_succ n hu).trans ht, by omega⟩

/-- At a self-jump the step executes a JP to its own address (R263). -/
theorem atSelfJump_iff {s : State} :
    atSelfJump s = true ↔ ∃ nnn, executed s = some (.jp nnn) ∧ immWord nnn = s.pc := by
  unfold atSelfJump
  split
  next nnn hi => simp [hi]
  next hno => exact iff_of_false Bool.false_ne_true fun ⟨nnn, hi, _⟩ => hno nnn hi

/-- What is executed depends on PC, memory and the wait alone. -/
theorem OnlyChanges.executed_eq {ps : List Part} {s t : State} (h : OnlyChanges ps s t)
    (hpc : .pc ∉ ps) (hmem : .mem ∉ ps) (hwait : .wait ∉ ps) : executed t = executed s := by
  obtain ⟨hawaiting, -⟩ := h .wait hwait
  rw [executed, executed, hawaiting, h.fetchedWord_eq hpc hmem]

/-- One step at a self-jump changes only what every step changes, and stays there. -/
theorem step_of_selfJump {s t : State} (hs : atSelfJump s = true) (h : step s = .next t) :
    atSelfJump t = true ∧ OnlyChanges [.dt, .st, .ev, .host] s t := by
  obtain ⟨nnn, hi, htarget⟩ := atSelfJump_iff.mp hs
  obtain ⟨u, hu, rfl⟩ := step_of_executed h hi
  obtain rfl := eq_of_exec_next hu (exec_jp nnn _)
  have hframe : OnlyChanges [.dt, .st, .ev, .host] s
      (endStep (jumpTo (immWord nnn) (afterFetch s))) := by
    apply OnlyChanges.of_fields <;> simp [afterFetch, htarget]
  refine ⟨atSelfJump_iff.mpr ⟨nnn, ?_, rfl⟩, hframe⟩
  rw [hframe.executed_eq (by decide) (by decide) (by decide), hi]

/-- Settles O56: by induction on the number of steps. -/
theorem selfJumpNeverEnds : Obligations.SelfJumpNeverEnds := by
  intro n
  induction n with
  | zero => exact fun s hs => ⟨s, rfl, hs, .refl _ s⟩
  | succ n ih =>
    intro s hs
    obtain ⟨u, hu⟩ := step_answers_next s
    obtain ⟨hself, hframe⟩ := step_of_selfJump hs hu
    obtain ⟨t, ht, hend, hrest⟩ := ih u hself
    exact ⟨t, (runSteps_succ n hu).trans ht, hend, hframe.trans hrest⟩

end Sys2Proof.Machine
end
